-- ==== Sys2Proof/Word.lean ====
section
/-! DEFINITION. The two data widths the block stores and moves. -/

namespace Sys2Proof

/-- A framebuffer byte, or an 8-bit colour channel on the command port (R20, R70). -/
abbrev Byte := BitVec 8

/-- A framebuffer nibble: the stored value of one colour channel (R6 `CH_W`, R22). -/
abbrev Nibble := BitVec 4

/-- The three colour channels, in the order the command port and the layout name them (R45, R70). -/
inductive Channel where
  | red
  | green
  | blue
  deriving DecidableEq, Repr

end Sys2Proof
end

