-- ==== Sys2Proof/Config.lean ====
section
/-! DEFINITION. What one block fixes: the sizes of R6, and the two parameters of R7 that the spec treats as
parameters with a default (U6 the nibble layout, U7 the coordinate width). No free value is needed. -/

namespace Sys2Proof

/-- Where the six channel nibbles of one pair group stand (U6, R45): each field is a nibble's place 0..5 in the
group, counted from the high nibble of `fb[base]`. The even LED is the one with `j'[0] = 0` (R43). -/
structure Layout where
  evenRed : Nat
  evenGreen : Nat
  evenBlue : Nat
  oddRed : Nat
  oddGreen : Nat
  oddBlue : Nat
  deriving DecidableEq, Repr

/-- The place in its group of one channel of the even (`false`) or odd (`true`) LED. -/
def Layout.slot (L : Layout) : Bool → Channel → Nat
  | false, .red => L.evenRed
  | false, .green => L.evenGreen
  | false, .blue => L.evenBlue
  | true, .red => L.oddRed
  | true, .green => L.oddGreen
  | true, .blue => L.oddBlue

/-- Three places are one whole outer byte of the group (places 0, 1 or 4, 5) and one nibble of the shared middle byte
(places 2, 3), in any order: what conflict C1 leaves one LED of the pair. -/
def Layout.oneByteAndAHalf (a b c : Nat) : Bool :=
  [a, b, c].all (· < 6) && a != b && b != c && a != c &&
    ([a, b, c].countP (fun p => p == 2 || p == 3) == 1) &&
    (([a, b, c].all (· < 4)) || ([a, b, c].all (2 ≤ ·)))

/-- What the source itself fixes of the layout (R45's last paragraph, C1, D5): each LED of the pair owns one whole
byte and one nibble of the shared byte, and the two LEDs own different nibbles. -/
def Layout.meetsSource (L : Layout) : Bool :=
  Layout.oneByteAndAHalf L.evenRed L.evenGreen L.evenBlue &&
    Layout.oneByteAndAHalf L.oddRed L.oddGreen L.oddBlue &&
    [L.evenRed, L.evenGreen, L.evenBlue].all (fun p => p != L.oddRed && p != L.oddGreen && p != L.oddBlue)

namespace Config

/-- `COORD_W`, the width of each coordinate input: the spec's default (R7, D3, U7; log 4). -/
abbrev coordW : Nat := 32

/-- The layout of R45: R, G, B of the even LED, then R, G, B of the odd LED (D5, U6; log 5). -/
def layout : Layout :=
  { evenRed := 0, evenGreen := 1, evenBlue := 2, oddRed := 3, oddGreen := 4, oddBlue := 5 }

/-- `FB_BYTES` of R6. -/
abbrev fbBytes : Nat := 96

/-- Two nibbles to a byte (R22): nibble numbers are 0..191. -/
abbrev fbNibbles : Nat := 192

/-- `NLED` of R6. -/
abbrev leds : Nat := 64

end Config

/-- A coordinate input on the command port (R10, R70). -/
abbrev Coord := BitVec Config.coordW

end Sys2Proof
end

