-- ==== Sys2Proof/Syntax.lean ====
section
/-! DEFINITION. The commands: one constructor per row of spec/opcode_table.json (R73). -/

namespace Sys2Proof

/-- One command with the operand fields its format reads (R71). The operands are kept as they stand on the port. -/
inductive Instr where
  /-- `op = 000`, format N (R120). -/
  | nop
  /-- `op = 001`, format N (R121). -/
  | clear
  /-- `op = 010`, format P (R100). -/
  | wrpix (ci cj ck : Coord) (cr cg cb : Byte)
  /-- `op = 011`, format A (R130). -/
  | rdbyte (ca : BitVec 7)
  /-- `op = 100`, format C (R134). -/
  | rdpix (ci cj ck : Coord)
  /-- `op = 101`, reserved (R75). -/
  | reserved101
  /-- `op = 110`, reserved (R75). -/
  | reserved110
  /-- `op = 111`, reserved (R75). -/
  | reserved111
  deriving DecidableEq, Repr

end Sys2Proof
end

