-- ==== Sys2Proof/WellFormed.lean ====
section
/-! DEFINITION. Which commands the host may issue: the "host must" column of R185. A command outside it is still
decoded, and its meaning is what R101, R131, R135 or R153 says. -/

namespace Sys2Proof

/-- A coordinate operand in range, as the integer it stands for (R10). -/
def Instr.coordOk (c : Coord) : Bool :=
  decide (0 ≤ c.toInt) && decide (c.toInt ≤ 3)

/-- What the host owes (R185): no reserved `op`; a byte address in 0..95; a read coordinate in range. Any operand of
WRPIX is legal. -/
def Instr.wellFormed : Instr → Bool
  | .nop => true
  | .clear => true
  | .wrpix _ _ _ _ _ _ => true
  | .rdbyte ca => decide (ca.toNat ≤ 95)
  | .rdpix ci cj ck => Instr.coordOk ci && Instr.coordOk cj && Instr.coordOk ck
  | .reserved101 => false
  | .reserved110 => false
  | .reserved111 => false

end Sys2Proof
end

