-- ==== Sys2Proof/Decode.lean ====
section
/-! DEFINITION. The command port (R70), the decoder of a command (R71, R73) and, after it, the encoder. -/

namespace Sys2Proof

/-- One transaction on the command port: every field of R70, read or not. -/
structure Command where
  op : BitVec 3
  ci : Coord
  cj : Coord
  ck : Coord
  cr : Byte
  cg : Byte
  cb : Byte
  ca : BitVec 7
  deriving DecidableEq, Repr

/-- The opcode map of R73. Total: every `op` has a row, and fields outside the row's format are ignored (R71, R72).
The reserved values decode to their rows of the table, whose meaning is a refusal (R75, R153). -/
def decode (c : Command) : Instr :=
  match c.op with
  | 0b000#3 => .nop
  | 0b001#3 => .clear
  | 0b010#3 => .wrpix c.ci c.cj c.ck c.cr c.cg c.cb
  | 0b011#3 => .rdbyte c.ca
  | 0b100#3 => .rdpix c.ci c.cj c.ck
  | 0b101#3 => .reserved101
  | 0b110#3 => .reserved110
  | _ => .reserved111

/-- The command formats of R71, and `none` of the reserved rows (R73). -/
inductive Format where
  | N
  | P
  | A
  | C
  | none
  deriving DecidableEq, Repr

/-- The format column of R73. -/
def Instr.format : Instr → Format
  | .nop => .N
  | .clear => .N
  | .wrpix _ _ _ _ _ _ => .P
  | .rdbyte _ => .A
  | .rdpix _ _ _ => .C
  | .reserved101 => .none
  | .reserved110 => .none
  | .reserved111 => .none

/-- A command whose fields are all 0 but for `op`: what an encoding starts from. -/
def Command.bare (op : BitVec 3) : Command :=
  { op := op, ci := 0, cj := 0, ck := 0, cr := 0, cg := 0, cb := 0, ca := 0 }

/-- The `op` and the fields a format reads (R71), every ignored field 0. -/
def Command.masked (c : Command) : Format → Command
  | .N => Command.bare c.op
  | .P => { Command.bare c.op with ci := c.ci, cj := c.cj, ck := c.ck, cr := c.cr, cg := c.cg, cb := c.cb }
  | .A => { Command.bare c.op with ca := c.ca }
  | .C => { Command.bare c.op with ci := c.ci, cj := c.cj, ck := c.ck }
  | .none => Command.bare c.op

/-- How many bits the port's fields have together: 3 of `op`, three coordinates, 24 of colour, 7 of address. -/
def portBits : Nat := 3 + 3 * Config.coordW + 24 + 7

/-- The port's fields read from one number, `op` in its lowest bits as the opcode table numbers it and the other
fields above it in the order of R70 (DESIGN CHOICE, log 7: the spec gives the fields side by side, not in a word). -/
def Command.ofBits (w : Nat) : Command where
  op := BitVec.ofNat 3 w
  ci := BitVec.ofNat _ (w >>> 3)
  cj := BitVec.ofNat _ (w >>> (3 + Config.coordW))
  ck := BitVec.ofNat _ (w >>> (3 + 2 * Config.coordW))
  cr := BitVec.ofNat 8 (w >>> (3 + 3 * Config.coordW))
  cg := BitVec.ofNat 8 (w >>> (11 + 3 * Config.coordW))
  cb := BitVec.ofNat 8 (w >>> (19 + 3 * Config.coordW))
  ca := BitVec.ofNat 7 (w >>> (27 + 3 * Config.coordW))

/-- Why a number is no transaction of the port. -/
inductive DecodeReject where
  /-- A bit is set above the last field: the port has no such wire (log 7). Raised by `decodeWord`; safe. -/
  | noSuchPortBit
  deriving DecidableEq, Repr

/-- The command a number stands for, or the name of the reason why it stands for none. -/
def decodeWord (w : Nat) : Except DecodeReject Instr :=
  if w < 2 ^ portBits then .ok (decode (Command.ofBits w)) else .error .noSuchPortBit

/-- The decoder on a word of the opcode table: its `nbits` low bits, every bit above them 0. -/
def decodeTableWord (nbits w : Nat) : Option Instr :=
  match decodeWord (w % 2 ^ nbits) with
  | .ok i => some i
  | .error _ => none

/-- The encoder: the `op` of the row (R73) and the fields its format reads (R71); the ignored fields are 0. -/
def encode : Instr → Command
  | .nop => Command.bare 0b000#3
  | .clear => Command.bare 0b001#3
  | .wrpix ci cj ck cr cg cb =>
    { Command.bare 0b010#3 with ci := ci, cj := cj, ck := ck, cr := cr, cg := cg, cb := cb }
  | .rdbyte ca => { Command.bare 0b011#3 with ca := ca }
  | .rdpix ci cj ck => { Command.bare 0b100#3 with ci := ci, cj := cj, ck := ck }
  | .reserved101 => Command.bare 0b101#3
  | .reserved110 => Command.bare 0b110#3
  | .reserved111 => Command.bare 0b111#3

/-- The port's fields as one number: the places `Command.ofBits` reads them from. -/
def Command.toBits (c : Command) : Nat :=
  c.op.toNat + 2 ^ 3 * (c.ci.toNat + 2 ^ Config.coordW * (c.cj.toNat + 2 ^ Config.coordW *
    (c.ck.toNat + 2 ^ Config.coordW * (c.cr.toNat + 2 ^ 8 * (c.cg.toNat + 2 ^ 8 *
      (c.cb.toNat + 2 ^ 8 * c.ca.toNat))))))

/-- The number that carries an instruction on the port. -/
def encodeWord (i : Instr) : Nat := (encode i).toBits

end Sys2Proof
end

