-- ==== Sys2Proof/Machine/State.lean ====
section
/-! DEFINITION. The block's state as plain data, the reasons a step can stop, and the state after reset. -/

namespace Sys2Proof.Machine

/-- The framebuffer as nibbles (R22, R24): pairs of a nibble number and its value, numbers strictly rising. A nibble
that is not listed is undefined (the spec's `⊥`; log 1). -/
abbrev Memory := List (Nat × Nibble)

/-- What the host does in one transaction (R185). -/
inductive HostEvent where
  /-- It issues one command on the port (R70). -/
  | command (c : Command)
  /-- It ends the frame: the 96 bytes go to the sink (R53, R183 step 3, R186). -/
  | handoff
  deriving DecidableEq, Repr

/-- The machine. -/
structure State where
  /-- The framebuffer, the block's only architectural state (R20). -/
  fb : Memory
  /-- `rsp_byte` as the last transaction left it; `none` where that transaction does not drive it (R70, U2; log 3). -/
  rspByte : Option Byte
  /-- `rsp_r`, as above. -/
  rspR : Option Nibble
  /-- `rsp_g`, as above. -/
  rspG : Option Nibble
  /-- `rsp_b`, as above. -/
  rspB : Option Nibble
  /-- The frame the last transaction gave the sink; `none` where it was no handoff (R53, R186; log 3). -/
  handed : Option (List Byte)
  /-- The model's own field: what the host will do, first event first (R28, R185; log 2). -/
  host : List HostEvent
  deriving DecidableEq, Repr

/-- What an uninitialised read met: the info R154 records. -/
inductive ReadPlace where
  /-- The byte address of an RDBYTE (R132). -/
  | byteAddress (a : Nat)
  /-- The LED index of an RDPIX (R136). -/
  | ledIndex (n : Nat)
  deriving DecidableEq, Repr

/-- The faults of R154: the run stops where the hardware would return its power-up contents. -/
inductive Fault where
  /-- RDBYTE or RDPIX meets an undefined nibble (R132, R136). Safe: the hardware goes on with a value no source fixes. -/
  | uninitialisedRead (p : ReadPlace)
  /-- A frame handoff meets an undefined nibble; `a` is the lowest such byte (R53, R154). Safe, as above. -/
  | uninitialisedFrame (a : Nat)
  deriving DecidableEq, Repr

/-- The refusals of R153, and of U2. -/
inductive Refusal where
  /-- An instruction that `exec` has no meaning for. Raised by `exec` only; safe. -/
  | notModelled (mnemonic : String)
  /-- A reserved `op` (R75). Raised by the three reserved rows; safe. -/
  | reservedOpcode (op : BitVec 3)
  /-- A byte address above 95 (R131). Raised by RDBYTE; safe. -/
  | byteAddressOutOfRange (a : BitVec 7)
  /-- A coordinate out of range (R135). Raised by RDPIX; safe. -/
  | coordinateOutOfRange
  /-- A response field the last transaction does not drive (R70, U2). Raised by a reader of the response port
  (`hostReadByte`, `hostReadPixel`), by no command; safe. -/
  | responseNotDriven
  deriving DecidableEq, Repr

/-- The outcome of this machine's steps. -/
abbrev Result := Host.Outcome State Fault Refusal

/-- After reset every nibble is undefined and nothing else exists to reset (R180, R181). No response is driven, no
frame is handed and the host has said nothing yet (DESIGN CHOICE, logs 2 and 3). -/
def State.reset : State where
  fb := []
  rspByte := none
  rspR := none
  rspG := none
  rspB := none
  handed := none
  host := []

end Sys2Proof.Machine
end

