-- ==== Sys2Proof/Machine/Operands.lean ====
section
/-! DEFINITION. The operand forms and the addresser: coordinates (R10, R41 to R43, R74), colours (R47, R76), byte
addresses (R77), and the bit fields and concatenations of R8 they use. -/

namespace Sys2Proof.Machine

/-- `v[7:4]` of a byte. -/
def hiNibble (v : Byte) : Nibble := v.extractLsb' 4 4

/-- `v[3:0]` of a byte. -/
def loNibble (v : Byte) : Nibble := v.extractLsb' 0 4

/-- `hi : lo`, the byte of two nibbles (R8). -/
def joinNibbles (hi lo : Nibble) : Byte := hi ++ lo

/-- Colour quantisation: `c[7:4]` is stored and `c[3:0]` is discarded (R47, R103). -/
def quantise (c : Byte) : Nibble := hiNibble c

/-- The validity test of one component, at any width `COORD_W = w`: bits `[w-1:2]` are all zero (R10, R74, R101). -/
def inRange {w : Nat} (c : BitVec w) : Bool := c.extractLsb' 2 (w - 2) == 0

/-- A valid coordinate: the values `ci[1:0]`, `cj[1:0]`, `ck[1:0]` of three in-range components (R74, R102). -/
structure LedCoord where
  i : BitVec 2
  j : BitVec 2
  k : BitVec 2
  deriving DecidableEq, Repr

/-- The coordinate on the port, or none where any component is out of range (`valid` of R101). Nothing is clamped,
wrapped or reduced (R74). -/
def coordinate {w : Nat} (ci cj ck : BitVec w) : Option LedCoord :=
  if inRange ci && inRange cj && inRange ck then
    some { i := ci.extractLsb' 0 2, j := cj.extractLsb' 0 2, k := ck.extractLsb' 0 2 }
  else none

/-- `j' = 3 - j` on 2 bits (R41). -/
def LedCoord.flippedRow (p : LedCoord) : BitVec 2 := 3#2 - p.j

/-- `n = 16*k + 4*i + j'`, in exact integers (R8, R42). -/
def LedCoord.index (p : LedCoord) : Nat :=
  16 * p.k.toNat + 4 * p.i.toNat + p.flippedRow.toNat

/-- `base = 24*k + 6*i + 3*(j' >> 1)`, in exact integers (R8, R43). -/
def LedCoord.groupBase (p : LedCoord) : Nat :=
  24 * p.k.toNat + 6 * p.i.toNat + 3 * (p.flippedRow >>> 1).toNat

/-- `odd = j'[0]` (R102). -/
def LedCoord.odd (p : LedCoord) : Bool := p.flippedRow.getLsbD 0

/-- The number of the nibble that holds one channel of LED `n`: the pair `n >> 1` owns 6 nibbles, and the layout
places the LED's channels among them (R43, R45). With the layout of R45 this is `3n + 0`, `3n + 1`, `3n + 2`. -/
def nibbleNumber (L : Layout) (n : Nat) (ch : Channel) : Nat :=
  6 * (n / 2) + L.slot (n % 2 == 1) ch

/-- A byte address operand in 0..95, or none in 96..127 (R77, R131). -/
def byteAddress (ca : BitVec 7) : Option Nat :=
  if ca.toNat ≤ 95 then some ca.toNat else none

end Sys2Proof.Machine
end

