-- ==== Sys2Proof/Machine/Ops.lean ====
section
/-! DEFINITION. The shared operations: the framebuffer's nibbles and bytes (R9, R22, R24), one LED's nibbles (R104,
R136), the response port (R70) and the frame (R53). The block takes no exception and returns from none (R150, R157,
R158), so there is no operation for either. -/

namespace Sys2Proof.Machine

/-! ## Nibbles -/

/-- The canonical form from nibble number `lo` on: numbers strictly rising and below 192. -/
def Memory.wfFrom (lo : Nat) : Memory → Bool
  | [] => true
  | (q, _) :: m => decide (lo ≤ q) && decide (q < Config.fbNibbles) && Memory.wfFrom (q + 1) m

/-- The canonical form of the framebuffer. -/
def Memory.wf (m : Memory) : Bool := Memory.wfFrom 0 m

/-- `nib[q]`, or none where it is undefined (R9, R24). -/
def Memory.nib : Memory → Nat → Option Nibble
  | [], _ => none
  | (p, v) :: m, q => if p = q then some v else Memory.nib m q

/-- `nib[q] <- v`, only that nibble (R9). A `none` makes it undefined, which takes its entry out. -/
def Memory.setNib : Memory → Nat → Option Nibble → Memory
  | [], _, none => []
  | [], q, some v => [(q, v)]
  | (p, w) :: m, q, v =>
    if q < p then
      match v with
      | none => (p, w) :: m
      | some x => (q, x) :: (p, w) :: m
    else if q = p then
      match v with
      | none => m
      | some x => (q, x) :: m
    else (p, w) :: Memory.setNib m q v

/-! ## Bytes -/

/-- `MemRead(a, 1)`: the byte of two defined nibbles, or none where either is undefined (R9, R22). -/
def Memory.readByte (m : Memory) (a : Nat) : Option Byte :=
  match Memory.nib m (2 * a), Memory.nib m (2 * a + 1) with
  | some hi, some lo => some (joinNibbles hi lo)
  | _, _ => none

/-- Both halves of a byte written, each defined or not: the byte view of R22 with the `⊥` of R24. -/
def Memory.setHalves (m : Memory) (a : Nat) (hi lo : Option Nibble) : Memory :=
  Memory.setNib (Memory.setNib m (2 * a) hi) (2 * a + 1) lo

/-- `MemWrite(a, 1, v)` (R9). -/
def Memory.writeByte (m : Memory) (a : Nat) (v : Byte) : Memory :=
  Memory.setHalves m a (some (hiNibble v)) (some (loNibble v))

/-- Every nibble 0 (R122). -/
def Memory.zeroed : Memory := (List.range Config.fbNibbles).map (fun q => (q, 0#4))

/-- CLEAR as R122 writes it: `MemWrite(a, 1, 0x00)` for `a` in 0..95. The meaning uses `Memory.zeroed`. -/
def Memory.clearLoop (m : Memory) : Memory :=
  (List.range Config.fbBytes).foldl (fun m a => Memory.writeByte m a 0#8) m

/-! ## One LED -/

/-- The three nibbles of LED `n` written (R104). -/
def Memory.writeLed (L : Layout) (m : Memory) (n : Nat) (r g b : Nibble) : Memory :=
  Memory.setNib (Memory.setNib (Memory.setNib m (nibbleNumber L n .red) (some r))
    (nibbleNumber L n .green) (some g)) (nibbleNumber L n .blue) (some b)

/-- The colour of LED `n`, or none where any of its nibbles is undefined (R136). -/
def Memory.readLed (L : Layout) (m : Memory) (n : Nat) : Option (Nibble × Nibble × Nibble) :=
  match Memory.nib m (nibbleNumber L n .red), Memory.nib m (nibbleNumber L n .green),
    Memory.nib m (nibbleNumber L n .blue) with
  | some r, some g, some b => some (r, g, b)
  | _, _, _ => none

/-- The pixel write, at every coordinate width and every layout: no change where the coordinate is out of range, the
LED's three quantised channels otherwise (R101 to R104). -/
def writePixel {w : Nat} (L : Layout) (ci cj ck : BitVec w) (cr cg cb : Byte) (m : Memory) : Memory :=
  match coordinate ci cj ck with
  | none => m
  | some p => Memory.writeLed L m p.index (quantise cr) (quantise cg) (quantise cb)

/-- The byte form of R104, for the layout of R45: a masked write of two bytes of the group, which keeps the partner
LED's nibble of the shared byte as it was, undefined or not. -/
def writePixelBytes {w : Nat} (ci cj ck : BitVec w) (cr cg cb : Byte) (m : Memory) : Memory :=
  match coordinate ci cj ck with
  | none => m
  | some p =>
    if p.odd then
      Memory.setHalves
        (Memory.setHalves m (p.groupBase + 1) (Memory.nib m (2 * (p.groupBase + 1))) (some (quantise cr)))
        (p.groupBase + 2) (some (quantise cg)) (some (quantise cb))
    else
      Memory.setHalves
        (Memory.setHalves m p.groupBase (some (quantise cr)) (some (quantise cg)))
        (p.groupBase + 1) (some (quantise cb)) (Memory.nib m (2 * (p.groupBase + 1) + 1))

/-! ## The frame -/

/-- The bytes at `a`, `a + 1`, … in address order, `k` of them, or none where one of them is not whole. -/
def Memory.bytesFrom (m : Memory) (a : Nat) : Nat → Option (List Byte)
  | 0 => some []
  | k + 1 =>
    match Memory.readByte m a, Memory.bytesFrom m (a + 1) k with
    | some v, some vs => some (v :: vs)
    | _, _ => none

/-- The frame `fb[0..95]` in address order (R48, R53). -/
def Memory.frame (m : Memory) : Option (List Byte) := Memory.bytesFrom m 0 Config.fbBytes

/-- The lowest of the `k` byte addresses from `a` on whose byte is not whole; `a + k` where all are. -/
def Memory.firstUndefined (m : Memory) (a : Nat) : Nat → Nat
  | 0 => a
  | k + 1 => if (Memory.readByte m a).isNone then a else Memory.firstUndefined m (a + 1) k

/-! ## The response port -/

/-- No response field driven and no frame handed: what every transaction starts from (R70). -/
def State.undriven (s : State) : State :=
  { s with rspByte := none, rspR := none, rspG := none, rspB := none, handed := none }

/-- `rsp_byte <- v`; the other fields stay undriven (R70, R132). -/
def State.driveByte (s : State) (v : Byte) : State := { s.undriven with rspByte := some v }

/-- `rsp_r`, `rsp_g`, `rsp_b` driven; `rsp_byte` stays undriven (R70, R136). -/
def State.drivePixel (s : State) (r g b : Nibble) : State :=
  { s.undriven with rspR := some r, rspG := some g, rspB := some b }

/-- The framebuffer replaced and no response driven: what a writing command leaves. -/
def State.withFb (s : State) (m : Memory) : State := { s.undriven with fb := m }

/-- The frame handed to the sink; the block keeps its state (R184, R185). -/
def State.handFrame (s : State) (f : List Byte) : State := { s.undriven with handed := some f }

/-- The host's coming events replaced. -/
def State.withHost (s : State) (es : List HostEvent) : State := { s with host := es }

/-- What a handoff gives the sink: the 96 bytes in address order, or the fault that names the lowest byte with an
undefined nibble (R53, R154). -/
def frameOutcome (m : Memory) : Host.Outcome (List Byte) Fault Refusal :=
  match Memory.frame m with
  | some f => .next f
  | none => .fault (.uninitialisedFrame (Memory.firstUndefined m 0 Config.fbBytes))

/-- The handoff (R183 step 3, R185, R186). -/
def handoff (s : State) : Result :=
  match frameOutcome s.fb with
  | .next f => .next (s.handFrame f)
  | .fault r => .fault r
  | .refused r => .refused r

end Sys2Proof.Machine
end

