-- ==== Sys2Proof/Machine/FrameControl.lean ====
section
/-! DEFINITION. NOP and CLEAR (41_frame_control.md). -/

namespace Sys2Proof.Machine

/-- NOP: the state is unchanged and no response field is driven (R120). -/
def execNop (s : State) : Result := .next s.undriven

/-- CLEAR: every nibble becomes 0, in one step, from any state (R121 to R123). -/
def execClear (s : State) : Result := .next (s.withFb Memory.zeroed)

end Sys2Proof.Machine
end

