-- ==== Sys2Proof/Machine/PixelWrite.lean ====
section
/-! DEFINITION. WRPIX (40_pixel_write.md). -/

namespace Sys2Proof.Machine

/-- WRPIX: the pixel write on the framebuffer; it drives no response, never faults and is never refused (R100 to R105).
-/
def execWrpix (ci cj ck : Coord) (cr cg cb : Byte) (s : State) : Result :=
  .next (s.withFb (writePixel Config.layout ci cj ck cr cg cb s.fb))

end Sys2Proof.Machine
end

