-- ==== Sys2Proof/Machine/Readout.lean ====
section
/-! DEFINITION. RDBYTE and RDPIX (42_readout.md). The checks stand in the order of R155: range, then definedness. -/

namespace Sys2Proof.Machine

/-- RDBYTE: refused above 95, a fault where a nibble of the byte is undefined, else `rsp_byte` (R130 to R133). -/
def execRdbyte (ca : BitVec 7) (s : State) : Result :=
  match byteAddress ca with
  | none => .refused (.byteAddressOutOfRange ca)
  | some a =>
    match Memory.readByte s.fb a with
    | none => .fault (.uninitialisedRead (.byteAddress a))
    | some v => .next (s.driveByte v)

/-- The LED read, at every coordinate width and every layout (R134 to R137). -/
def readPixel {w : Nat} (L : Layout) (ci cj ck : BitVec w) (s : State) : Result :=
  match coordinate ci cj ck with
  | none => .refused .coordinateOutOfRange
  | some p =>
    match Memory.readLed L s.fb p.index with
    | none => .fault (.uninitialisedRead (.ledIndex p.index))
    | some (r, g, b) => .next (s.drivePixel r g b)

/-- RDPIX: refused out of range, a fault where a nibble of the LED is undefined, else `rsp_r`, `rsp_g`, `rsp_b`
(R134 to R137). -/
def execRdpix (ci cj ck : Coord) (s : State) : Result := readPixel Config.layout ci cj ck s

end Sys2Proof.Machine
end

