-- ==== Sys2Proof/Machine/Reserved.lean ====
section
/-! DEFINITION. The reserved rows of the opcode table: refused under the name the spec gives (R75, R153). -/

namespace Sys2Proof.Machine

/-- A reserved `op` is refused, whatever the other fields and the state are; it is no NOP (R75, R153, R155). -/
def refuseReserved (op : BitVec 3) (_s : State) : Result := .refused (.reservedOpcode op)

/-- `op = 101`. -/
def execReserved101 (s : State) : Result := refuseReserved 0b101#3 s

/-- `op = 110`. -/
def execReserved110 (s : State) : Result := refuseReserved 0b110#3 s

/-- `op = 111`. -/
def execReserved111 (s : State) : Result := refuseReserved 0b111#3 s

end Sys2Proof.Machine
end

