-- ==== Sys2Proof/Machine/Dispatch.lean ====
section
/-! DEFINITION. One arm per command. -/

namespace Sys2Proof.Machine

def exec (i : Instr) (s : State) : Host.Outcome State Fault Refusal :=
  match i with
  | .nop => Sys2Proof.Machine.execNop s
  | .clear => Sys2Proof.Machine.execClear s
  | .wrpix ci cj ck cr cg cb => Sys2Proof.Machine.execWrpix ci cj ck cr cg cb s
  | .rdbyte ca => Sys2Proof.Machine.execRdbyte ca s
  | .rdpix ci cj ck => Sys2Proof.Machine.execRdpix ci cj ck s
  | .reserved101 => Sys2Proof.Machine.execReserved101 s
  | .reserved110 => Sys2Proof.Machine.execReserved110 s
  | .reserved111 => Sys2Proof.Machine.execReserved111 s

end Sys2Proof.Machine
end

