-- ==== Sys2Proof/Machine/HostPort.lean ====
section
/-! DEFINITION. The host's side of the ports: one transaction, the responses it may read, and what a whole run shows
(R70, R185, R186). -/

namespace Sys2Proof.Machine

/-- One interaction of R185's table: the command on the port is decoded and run, or the frame is handed off. -/
def perform (e : HostEvent) (s : State) : Result :=
  match e with
  | .command c => exec (decode c) s
  | .handoff => handoff s

/-- The host's next interaction is taken from the front of its list and performed. Where it issues nothing the state
holds unchanged (R165). -/
def hostStep (s : State) : Result :=
  match s.host with
  | [] => .next s
  | e :: es => perform e (s.withHost es)

/-- The host's next interaction becomes this command; what it does afterwards is unchanged. -/
def State.issue (s : State) (c : Command) : State := s.withHost (.command c :: s.host)

/-- The host reads `rsp_byte`: the value driven, or a refusal where the last transaction does not drive it (R70, U2). -/
def hostReadByte (s : State) : Host.Outcome Byte Fault Refusal :=
  match s.rspByte with
  | some v => .next v
  | none => .refused .responseNotDriven

/-- The host reads `rsp_r`, `rsp_g` and `rsp_b` (R70, U2). -/
def hostReadPixel (s : State) : Host.Outcome (Nibble × Nibble × Nibble) Fault Refusal :=
  match s.rspR, s.rspG, s.rspB with
  | some r, some g, some b => .next (r, g, b)
  | _, _, _ => .refused .responseNotDriven

/-- One response a command drove. -/
inductive Response where
  | byte (v : Byte)
  | pixel (r g b : Nibble)
  deriving DecidableEq, Repr

/-- The responses the last transaction drove: at most one. -/
def State.driven (s : State) : List Response :=
  match s.rspByte, s.rspR, s.rspG, s.rspB with
  | some v, _, _, _ => [.byte v]
  | none, some r, some g, some b => [.pixel r g b]
  | none, _, _, _ => []

/-- What a run shows (R186): the frame it ends with and every response driven in it, first response first. -/
structure Observation where
  frame : List Byte
  responses : List Response
  deriving DecidableEq, Repr

/-- The commands of a list one after another, stopping at the first fault or refusal (R56, R153, R154). -/
def execAll : List Instr → State → Result
  | [], s => .next s
  | i :: is, s =>
    match exec i s with
    | .next t => execAll is t
    | .fault r => .fault r
    | .refused r => .refused r

/-- The observation of a run whose commands are `is`: it ends with the handoff of R186. Where a command or that handoff
stops, the stop alone is the observation and the responses driven before it are dropped (DESIGN CHOICE, log 10: R186 and
R154 do not say whether they stay). -/
def observe : List Instr → State → Host.Outcome Observation Fault Refusal
  | [], s =>
    match frameOutcome s.fb with
    | .next f => .next { frame := f, responses := [] }
    | .fault r => .fault r
    | .refused r => .refused r
  | i :: is, s =>
    match exec i s with
    | .next t =>
      match observe is t with
      | .next o => .next { o with responses := t.driven ++ o.responses }
      | .fault r => .fault r
      | .refused r => .refused r
    | .fault r => .fault r
    | .refused r => .refused r

end Sys2Proof.Machine
end

