-- ==== Sys2Proof/Machine/Step.lean ====
section
/-! DEFINITION. One step of the block, and how a command comes to be the next one. -/

namespace Sys2Proof.Machine

/-- One step: the host's next interaction (R12, R155). The block fetches nothing and has no program counter (R28, R60).
-/
def step (s : State) : Host.Outcome State Fault Refusal := hostStep s

/-- The command whose port bits are the `nbits` low bits of `w` is what the host issues next (log 2). -/
def State.withFetchWord (s : State) (nbits w : Nat) : State := s.issue (Command.ofBits (w % 2 ^ nbits))

end Sys2Proof.Machine
end

