-- ==== Sys2Proof/Machine/Assembler.lean ====
section
/-! DEFINITION. The command syntax of R81 and the pseudo-commands of R82. Text is a list of characters, one command a
line; log 8 says what R81 leaves open. -/

namespace Sys2Proof.Machine

/-- One line of R81 or one pseudo-command of R82, its operands as integers. -/
inductive AsmLine where
  | nop
  | clear
  | wrpix (i j k r g b : Int)
  | rdbyte (a : Int)
  | rdpix (i j k : Int)
  | blank (i j k : Int)
  | rdframe
  | fill (r g b : Int)
  deriving DecidableEq, Repr

/-- Why the assembler rejects a line. Each is safe: no command comes of it. -/
inductive AsmError where
  /-- A colour outside 0..255 (R81). -/
  | colourOutOfRange (v : Int)
  /-- A byte address outside 0..127 (R81). -/
  | byteAddressOutOfRange (v : Int)
  /-- A coordinate with no `COORD_W`-bit two's-complement value (R81, D3; log 8). -/
  | coordinateNotRepresentable (v : Int)
  /-- A word that is no mnemonic of R81 or R82. -/
  | unknownMnemonic
  /-- Too few or too many operands. -/
  | operandCount
  /-- An operand that is no decimal or `0x` number. -/
  | badNumber
  deriving DecidableEq, Repr

/-- A coordinate operand as its two's-complement value (R81). -/
def asmCoord (v : Int) : Except AsmError Coord :=
  if (BitVec.ofInt Config.coordW v).toInt = v then .ok (BitVec.ofInt Config.coordW v)
  else .error (.coordinateNotRepresentable v)

/-- A colour operand, 0..255 (R81). -/
def asmColour (v : Int) : Except AsmError Byte :=
  if 0 ≤ v ∧ v ≤ 255 then .ok (BitVec.ofInt 8 v) else .error (.colourOutOfRange v)

/-- A byte address operand, 0..127 (R81). -/
def asmAddress (v : Int) : Except AsmError (BitVec 7) :=
  if 0 ≤ v ∧ v ≤ 127 then .ok (BitVec.ofInt 7 v) else .error (.byteAddressOutOfRange v)

/-- `WRPIX i, j, k, r, g, b` (R81). -/
def asmWrpix (i j k r g b : Int) : Except AsmError Instr := do
  let ci ← asmCoord i
  let cj ← asmCoord j
  let ck ← asmCoord k
  let cr ← asmColour r
  let cg ← asmColour g
  let cb ← asmColour b
  return .wrpix ci cj ck cr cg cb

/-- The 64 coordinates of FILL: k outermost, then i, then j (R82). -/
def fillOrder : List (Nat × Nat × Nat) :=
  (List.range 4).flatMap fun k => (List.range 4).flatMap fun i => (List.range 4).map fun j => (i, j, k)

/-- The commands of one line: itself, or the expansion of a pseudo-command (R81, R82). -/
def assemble : AsmLine → Except AsmError (List Instr)
  | .nop => .ok [.nop]
  | .clear => .ok [.clear]
  | .wrpix i j k r g b => do return [← asmWrpix i j k r g b]
  | .rdbyte a => do return [.rdbyte (← asmAddress a)]
  | .rdpix i j k => do return [.rdpix (← asmCoord i) (← asmCoord j) (← asmCoord k)]
  | .blank i j k => do return [← asmWrpix i j k 0 0 0]
  | .rdframe => (List.range Config.fbBytes).mapM fun a => do return .rdbyte (← asmAddress a)
  | .fill r g b => fillOrder.mapM fun p => asmWrpix p.1 p.2.1 p.2.2 r g b

/-- The text up to a `;`, where a comment starts (R81). -/
def stripComment : List Char → List Char
  | [] => []
  | c :: cs => if c = ';' then [] else c :: stripComment cs

/-- Blank space within a line. -/
def isBlank (c : Char) : Bool := c == ' ' || c == '\t'

/-- The text without blanks at either end. -/
def trim (cs : List Char) : List Char :=
  ((cs.dropWhile isBlank).reverse.dropWhile isBlank).reverse

/-- The parts between commas; one empty part for the empty text. -/
def splitCommas : List Char → List (List Char)
  | [] => [[]]
  | c :: cs =>
    match splitCommas cs with
    | [] => [[c]]
    | part :: parts => if c = ',' then [] :: part :: parts else (c :: part) :: parts

/-- The value of one digit in base 10 or 16. -/
def digitValue (base : Nat) (c : Char) : Option Nat :=
  let v :=
    if '0' ≤ c ∧ c ≤ '9' then c.toNat - '0'.toNat
    else if 'a' ≤ c ∧ c ≤ 'f' then c.toNat - 'a'.toNat + 10
    else if 'A' ≤ c ∧ c ≤ 'F' then c.toNat - 'A'.toNat + 10
    else base
  if v < base then some v else none

/-- The digits of a number read on from the value so far. -/
def digitsValue (base : Nat) (acc : Nat) : List Char → Option Nat
  | [] => some acc
  | c :: cs =>
    match digitValue base c with
    | some d => digitsValue base (base * acc + d) cs
    | none => none

/-- A number of at least one digit. -/
def unsignedNumber (base : Nat) (cs : List Char) : Except AsmError Int :=
  match cs, digitsValue base 0 cs with
  | _ :: _, some v => .ok v
  | _, _ => .error .badNumber

/-- An operand: decimal, or hexadecimal after `0x`; a leading `-` on a decimal coordinate (R81). -/
def operandValue (signed : Bool) (cs : List Char) : Except AsmError Int :=
  match cs with
  | '0' :: 'x' :: ds => unsignedNumber 16 ds
  | '-' :: ds =>
    if signed then
      match unsignedNumber 10 ds with
      | .ok v => .ok (-v)
      | .error e => .error e
    else .error .badNumber
  | ds => unsignedNumber 10 ds

/-- The operands of a line, the first three of them coordinates where `coords` says so (R81). -/
def operandValues (coords : Bool) (text : List Char) : Except AsmError (List Int) :=
  match trim text with
  | [] => .ok []
  | t =>
    let parts := (splitCommas t).map trim
    match (if coords then (parts.take 3).mapM (operandValue true) else (parts.take 3).mapM (operandValue false)),
      (parts.drop 3).mapM (operandValue false) with
    | .ok a, .ok b => .ok (a ++ b)
    | .error e, _ => .error e
    | _, .error e => .error e

/-- One line of text as a line of R81 or R82; none for a line with no command on it. -/
def parseLine (text : List Char) : Except AsmError (Option AsmLine) :=
  let t := trim (stripComment text)
  let mnemonic := t.takeWhile fun c => !isBlank c
  let rest := t.drop mnemonic.length
  match mnemonic with
  | [] => .ok none
  | ['N', 'O', 'P'] =>
    match operandValues false rest with
    | .ok [] => .ok (some .nop)
    | .ok _ => .error .operandCount
    | .error e => .error e
  | ['C', 'L', 'E', 'A', 'R'] =>
    match operandValues false rest with
    | .ok [] => .ok (some .clear)
    | .ok _ => .error .operandCount
    | .error e => .error e
  | ['W', 'R', 'P', 'I', 'X'] =>
    match operandValues true rest with
    | .ok [i, j, k, r, g, b] => .ok (some (.wrpix i j k r g b))
    | .ok _ => .error .operandCount
    | .error e => .error e
  | ['R', 'D', 'B', 'Y', 'T', 'E'] =>
    match operandValues false rest with
    | .ok [a] => .ok (some (.rdbyte a))
    | .ok _ => .error .operandCount
    | .error e => .error e
  | ['R', 'D', 'P', 'I', 'X'] =>
    match operandValues true rest with
    | .ok [i, j, k] => .ok (some (.rdpix i j k))
    | .ok _ => .error .operandCount
    | .error e => .error e
  | ['B', 'L', 'A', 'N', 'K'] =>
    match operandValues true rest with
    | .ok [i, j, k] => .ok (some (.blank i j k))
    | .ok _ => .error .operandCount
    | .error e => .error e
  | ['R', 'D', 'F', 'R', 'A', 'M', 'E'] =>
    match operandValues false rest with
    | .ok [] => .ok (some .rdframe)
    | .ok _ => .error .operandCount
    | .error e => .error e
  | ['F', 'I', 'L', 'L'] =>
    match operandValues false rest with
    | .ok [r, g, b] => .ok (some (.fill r g b))
    | .ok _ => .error .operandCount
    | .error e => .error e
  | _ => .error .unknownMnemonic

/-- The commands of one line of text (R81, R82). -/
def assembleText (text : List Char) : Except AsmError (List Instr) :=
  match parseLine text with
  | .ok none => .ok []
  | .ok (some l) => assemble l
  | .error e => .error e

/-- One hexadecimal digit. -/
def hexDigit (v : Nibble) : Char :=
  (['0', '1', '2', '3', '4', '5', '6', '7', '8', '9', 'A', 'B', 'C', 'D', 'E', 'F'] : List Char).getD v.toNat '0'

/-- A result as it is written after its command (R81): `; -> 0xNN`, or `; -> (R, G, B)` with hexadecimal values as the
programs of 95_test_vectors.md write them. -/
def renderResult : Response → List Char
  | .byte v => [';', ' ', '-', '>', ' ', '0', 'x', hexDigit (hiNibble v), hexDigit (loNibble v)]
  | .pixel r g b =>
    [';', ' ', '-', '>', ' ', '(', '0', 'x', hexDigit r, ',', ' ', '0', 'x', hexDigit g, ',', ' ', '0', 'x',
      hexDigit b, ')']

end Sys2Proof.Machine
end

