-- ==== Sys2Proof/Safety.lean ====
section
/-! DEFINITION. The terms the claims use: the invariant, definedness, legal and safe runs, the frame lifecycle of R183,
and the colours a run leaves, said without the framebuffer. -/

namespace Sys2Proof

/-- A pixel write, of any operands. -/
def Instr.isPixelWrite : Instr → Bool
  | .nop => false
  | .clear => false
  | .wrpix _ _ _ _ _ _ => true
  | .rdbyte _ => false
  | .rdpix _ _ _ => false
  | .reserved101 => false
  | .reserved110 => false
  | .reserved111 => false

/-- A command that reads: the only ones that drive a response (R70). -/
def Instr.isRead : Instr → Bool
  | .nop => false
  | .clear => false
  | .wrpix _ _ _ _ _ _ => false
  | .rdbyte _ => true
  | .rdpix _ _ _ => true
  | .reserved101 => false
  | .reserved110 => false
  | .reserved111 => false

end Sys2Proof

namespace Sys2Proof.Machine

/-- The outcome is a next state, not a fault or a refusal. -/
def Completes (r : Result) : Prop := ∃ t, r = .next t

/-- What every step keeps: the framebuffer is in its canonical form (the model's list, log 1, for the size and the
nibbles of R20 and R22); at most one kind of response is driven, `rsp_r`, `rsp_g`, `rsp_b` together or not at all (R70,
with log 3 for an undriven field's having no value); no response stands beside a handed frame (the model's choice,
log 3: R70 and U2 speak of commands only); a frame handed over has 96 bytes (R53). -/
structure State.Inv (s : State) : Prop where
  fbCanonical : Memory.wf s.fb = true
  pixelWhole : s.rspR.isSome = s.rspG.isSome ∧ s.rspG.isSome = s.rspB.isSome
  oneKind : ¬ (s.rspByte.isSome = true ∧ s.rspR.isSome = true) ∧ ¬ (s.rspByte.isSome = true ∧ s.handed.isSome = true) ∧
    ¬ (s.rspR.isSome = true ∧ s.handed.isSome = true)
  frameWhole : ∀ f, s.handed = some f → f.length = Config.fbBytes

/-- Every nibble of the framebuffer is defined (R24). -/
def Memory.AllDefined (m : Memory) : Prop := ∀ q, q < Config.fbNibbles → (Memory.nib m q).isSome = true

/-- The colour of one LED: its stored red, green and blue. -/
abbrev Colour := Nibble × Nibble × Nibble

/-- What one command does to the colour of the LED at `p`, said by coordinates alone (R57, R104, R122). -/
def colourAfter (p : LedCoord) (old : Option Colour) : Instr → Option Colour
  | .nop => old
  | .clear => some (0, 0, 0)
  | .wrpix ci cj ck cr cg cb =>
    if coordinate ci cj ck = some p then some (quantise cr, quantise cg, quantise cb) else old
  | .rdbyte _ => old
  | .rdpix _ _ _ => old
  | .reserved101 => old
  | .reserved110 => old
  | .reserved111 => old

/-- The colour of the LED at `p` after a list of commands. -/
def colourHistory (p : LedCoord) : List Instr → Option Colour → Option Colour
  | [], c => c
  | i :: is, c => colourHistory p is (colourAfter p c i)

/-- What one command does to nibble `q`, said by numbers alone, with the layout of R45 (R56, R104, R122). -/
def nibbleAfter (q : Nat) (old : Option Nibble) : Instr → Option Nibble
  | .nop => old
  | .clear => some 0
  | .wrpix ci cj ck cr cg cb =>
    match coordinate ci cj ck with
    | none => old
    | some p =>
      if q = 3 * p.index then some (quantise cr)
      else if q = 3 * p.index + 1 then some (quantise cg)
      else if q = 3 * p.index + 2 then some (quantise cb)
      else old
  | .rdbyte _ => old
  | .rdpix _ _ _ => old
  | .reserved101 => old
  | .reserved110 => old
  | .reserved111 => old

/-- Nibble `q` after a list of commands: the value the latest of them to write it wrote, or what it was before. -/
def nibbleHistory (q : Nat) : List Instr → Option Nibble → Option Nibble
  | [], v => v
  | i :: is, v => nibbleHistory q is (nibbleAfter q v i)

/-- No response field is driven (R70) and no frame is handed (how the model holds these outputs is its choice, log 3).
-/
def State.DrivesNothing (t : State) : Prop :=
  t.rspByte = none ∧ t.rspR = none ∧ t.rspG = none ∧ t.rspB = none ∧ t.handed = none

/-- A component whose integer value lies outside 0..3 (R10). -/
def OutOfRange (c : Coord) : Prop := c.toInt < 0 ∨ 3 < c.toInt

/-- The coordinate of LED `n`: the inverse of R42. -/
def ledAt (n : Nat) : LedCoord :=
  { i := BitVec.ofNat 2 (n / 4), j := 3#2 - BitVec.ofNat 2 n, k := BitVec.ofNat 2 (n / 16) }

/-- The 96 bytes of a frame whose LED `n` has the colour `col n`: for each pair, the 24 bits of R80's diagram. -/
def packFrame (col : Nat → Colour) : List Byte :=
  (List.range 32).flatMap fun p =>
    [joinNibbles (col (2 * p)).1 (col (2 * p)).2.1,
      joinNibbles (col (2 * p)).2.2 (col (2 * p + 1)).1,
      joinNibbles (col (2 * p + 1)).2.1 (col (2 * p + 1)).2.2]

/-- The host's side of a safe run: every command meets the host's duties of R185. -/
def legalRun (is : List Instr) : Bool := is.all Instr.wellFormed

end Sys2Proof.Machine
end

