-- ==== Sys2Proof/Certificates/Slice0/Obligations.lean ====
section
/-! DEFINITION. The statements for the provers. Each docstring names the rule of spec/ it formalises. -/

open Sys2Proof Sys2Proof.Machine

/-- R180: after reset every framebuffer nibble is undefined. -/
def Obligations.ResetLeavesEveryNibbleUndefined : Prop :=
  ∀ q, q < 192 → Memory.nib State.reset.fb q = none

/-- R24, R182: right after reset every read that is in range and every handoff is a fault, and nothing is accepted as
zero. -/
def Obligations.ReadsRightAfterResetFault : Prop :=
  (∀ ca : BitVec 7, ca.toNat ≤ 95 →
    exec (.rdbyte ca) State.reset = .fault (.uninitialisedRead (.byteAddress ca.toNat))) ∧
  (∀ (ci cj ck : Coord) (p : LedCoord), coordinate ci cj ck = some p →
    exec (.rdpix ci cj ck) State.reset = .fault (.uninitialisedRead (.ledIndex p.index))) ∧
  handoff State.reset = .fault (.uninitialisedFrame 0)

/-- The invariant holds after reset, and nothing is driven, handed over or pending then (the model's choice, logs 2
and 3: the spec gives the ports no reset value). -/
def Obligations.ResetMeetsTheInvariant : Prop :=
  State.reset.Inv ∧ State.reset.DrivesNothing ∧ State.reset.host = []

/-- Every step keeps the invariant, from every state that meets it. The framebuffer's list stays canonical within 0..191:
the form of the list is the model's choice (log 1), the size and the nibbles are R20 and R22. At most one of
`rsp_byte` and the pixel fields is driven, the pixel fields together or not at all: R70, an undriven field's having no
value being log 3. No response stands beside a handed frame: the model's choice (log 3), since R70 and U2 speak of
commands only. A handed frame has 96 bytes: R53. -/
def Obligations.EveryStepKeepsTheInvariant : Prop :=
  ∀ s t : State, s.Inv → step s = .next t → t.Inv

/-- R24: a defined nibble stays defined whatever the next step is. -/
def Obligations.DefinedNibblesStayDefined : Prop :=
  ∀ (s t : State) (q : Nat), q < 192 → step s = .next t →
    (Memory.nib s.fb q).isSome = true → (Memory.nib t.fb q).isSome = true

/-- R120: NOP is every command with `op = 000`, changes nothing, drives nothing, and the next command does the same as
without it. -/
def Obligations.NopChangesNothing : Prop :=
  (∀ c : Command, c.op = 0b000#3 → decode c = .nop) ∧
  (∀ s : State, ∃ t, exec .nop s = .next t ∧ t.fb = s.fb ∧ t.host = s.host ∧ t.DrivesNothing) ∧
  ∀ (s t : State) (i : Instr), exec .nop s = .next t → exec i t = exec i s

/-- R122: from every state with a canonical framebuffer CLEAR completes in one step with the framebuffer the loop of byte
writes gives; every nibble, byte and LED is zero. -/
def Obligations.ClearZeroesTheFrame : Prop :=
  ∀ s : State, Memory.wf s.fb = true → ∃ t, exec .clear s = .next t ∧
    t.fb = Memory.clearLoop s.fb ∧
    (∀ q, q < 192 → Memory.nib t.fb q = some 0) ∧
    (∀ a, a < 96 → Memory.readByte t.fb a = some 0) ∧
    (∀ p : LedCoord, Memory.readLed Config.layout t.fb p.index = some (0, 0, 0)) ∧
    t.host = s.host ∧ t.DrivesNothing

/-- R123: CLEAR never stops; after reset it turns every undefined nibble into 0; after it nothing of what any commands did before can be told; twice is the same as once;
the frame of CLEAR alone is 96 zero bytes. -/
def Obligations.ClearForgetsThePast : Prop :=
  (∀ s : State, Completes (exec .clear s)) ∧
  (∀ (t : State) (q : Nat), exec .clear State.reset = .next t → q < 192 → Memory.nib t.fb q = some 0) ∧
  (∀ (is : List Instr) (s t : State), execAll is s = .next t → exec .clear t = exec .clear s) ∧
  (∀ s t : State, exec .clear s = .next t → exec .clear t = .next t) ∧
  ∀ s : State, observe [.clear] s = .next { frame := List.replicate 96 0, responses := [] }

/-- R108: a WRPIX with a valid coordinate completes, puts `cr[7:4]`, `cg[7:4]`, `cb[7:4]` into the nibbles `3n`, `3n + 1`,
`3n + 2`, and leaves every other nibble, every other LED (its pair's too) and every byte but two as they were. -/
def Obligations.WrpixWritesExactlyItsLed : Prop :=
  ∀ (ci cj ck : Coord) (cr cg cb : Byte) (s : State) (p : LedCoord), coordinate ci cj ck = some p →
    ∃ t, exec (.wrpix ci cj ck cr cg cb) s = .next t ∧
      Memory.nib t.fb (3 * p.index) = some (cr.extractLsb' 4 4) ∧
      Memory.nib t.fb (3 * p.index + 1) = some (cg.extractLsb' 4 4) ∧
      Memory.nib t.fb (3 * p.index + 2) = some (cb.extractLsb' 4 4) ∧
      (∀ q, q ≠ 3 * p.index → q ≠ 3 * p.index + 1 → q ≠ 3 * p.index + 2 → Memory.nib t.fb q = Memory.nib s.fb q) ∧
      (∀ p' : LedCoord, p' ≠ p →
        Memory.readLed Config.layout t.fb p'.index = Memory.readLed Config.layout s.fb p'.index) ∧
      (∀ a, a ≠ p.groupBase + (if p.odd then 1 else 0) → a ≠ p.groupBase + (if p.odd then 2 else 1) →
        Memory.readByte t.fb a = Memory.readByte s.fb a) ∧
      t.host = s.host ∧ t.DrivesNothing

/-- R104: the two forms of WRPIX are one. From a canonical framebuffer the step leaves what the masked byte writes leave;
out of range nothing is written; in range the three nibbles are the quantised channels. -/
def Obligations.WrpixNibbleAndByteFormsAgree : Prop :=
  ∀ (ci cj ck : Coord) (cr cg cb : Byte) (s : State), Memory.wf s.fb = true →
    ∃ t, exec (.wrpix ci cj ck cr cg cb) s = .next t ∧
      t.fb = writePixelBytes ci cj ck cr cg cb s.fb ∧
      (coordinate ci cj ck = none → t.fb = s.fb) ∧
      ∀ p, coordinate ci cj ck = some p →
        t.fb = Memory.setNib (Memory.setNib (Memory.setNib s.fb (3 * p.index) (some (cr.extractLsb' 4 4)))
          (3 * p.index + 1) (some (cg.extractLsb' 4 4))) (3 * p.index + 2) (some (cb.extractLsb' 4 4))

/-- R109: a WRPIX with any component outside 0..3 completes and leaves the framebuffer as it was, for any contents. -/
def Obligations.WrpixOutOfRangeIsSilent : Prop :=
  ∀ (ci cj ck : Coord) (cr cg cb : Byte) (s : State), OutOfRange ci ∨ OutOfRange cj ∨ OutOfRange ck →
    ∃ t, exec (.wrpix ci cj ck cr cg cb) s = .next t ∧ t.fb = s.fb ∧ t.host = s.host ∧ t.DrivesNothing

/-- R105: every command with `op = 010` is a WRPIX of its own fields and is neither a fault nor a refusal. -/
def Obligations.WrpixNeverStops : Prop :=
  ∀ (c : Command) (s : State), c.op = 0b010#3 →
    decode c = .wrpix c.ci c.cj c.ck c.cr c.cg c.cb ∧
    ∃ t, exec (decode c) s = .next t ∧ t.fb = writePixel Config.layout c.ci c.cj c.ck c.cr c.cg c.cb s.fb ∧
      t.host = s.host ∧ t.DrivesNothing

/-- R103: WRPIX stores bits [7:4] of each channel, and two colours that agree there leave the same state. -/
def Obligations.LowColourBitsHaveNoEffect : Prop :=
  (∀ (ci cj ck : Coord) (cr cg cb : Byte) (s t : State) (p : LedCoord), coordinate ci cj ck = some p →
    exec (.wrpix ci cj ck cr cg cb) s = .next t →
    Memory.readLed Config.layout t.fb p.index =
      some (cr.extractLsb' 4 4, cg.extractLsb' 4 4, cb.extractLsb' 4 4)) ∧
  ∀ (ci cj ck : Coord) (cr cg cb cr' cg' cb' : Byte) (s : State),
    cr.toNat / 16 = cr'.toNat / 16 → cg.toNat / 16 = cg'.toNat / 16 → cb.toNat / 16 = cb'.toNat / 16 →
    exec (.wrpix ci cj ck cr cg cb) s = exec (.wrpix ci cj ck cr' cg' cb') s

/-- R10, at every coordinate width from 3 on: a component passes the test of its upper bits exactly when its
two's-complement integer lies in 0..3, and three components are a coordinate exactly when each has that
coordinate's value. -/
def Obligations.CoordinateInRangeExactly : Prop :=
  ∀ w : Nat, 3 ≤ w →
    (∀ c : BitVec w, inRange c = true ↔ 0 ≤ c.toInt ∧ c.toInt ≤ 3) ∧
    ∀ (ci cj ck : BitVec w) (p : LedCoord), coordinate ci cj ck = some p ↔
      ci.toInt = p.i.toNat ∧ cj.toInt = p.j.toNat ∧ ck.toInt = p.k.toNat

/-- D3, U7: the width of the coordinate inputs does not matter. Integers that two widths can both represent write and
read the same LED at either. -/
def Obligations.CoordinateWidthDoesNotMatter : Prop :=
  ∀ (w w' : Nat) (L : Layout) (i j k : Int) (cr cg cb : Byte) (m : Memory) (s : State), 3 ≤ w → 3 ≤ w' →
    (∀ z ∈ [i, j, k], (BitVec.ofInt w z).toInt = z ∧ (BitVec.ofInt w' z).toInt = z) →
    writePixel L (BitVec.ofInt w i) (BitVec.ofInt w j) (BitVec.ofInt w k) cr cg cb m =
      writePixel L (BitVec.ofInt w' i) (BitVec.ofInt w' j) (BitVec.ofInt w' k) cr cg cb m ∧
    readPixel L (BitVec.ofInt w i) (BitVec.ofInt w j) (BitVec.ofInt w k) s =
      readPixel L (BitVec.ofInt w' i) (BitVec.ofInt w' j) (BitVec.ofInt w' k) s

/-- R41: the flipped row is `3 - j`, in 0..3, the complement of `j`'s two bits; out of range no row is flipped and
nothing is addressed. -/
def Obligations.RowFlipIsThreeMinusTheRow : Prop :=
  (∀ p : LedCoord, p.flippedRow.toNat = 3 - p.j.toNat ∧ p.flippedRow.toNat ≤ 3 ∧ p.flippedRow = ~~~p.j) ∧
  ∀ (ci cj ck : Coord) (cr cg cb : Byte) (m : Memory) (s : State), coordinate ci cj ck = none →
    writePixel Config.layout ci cj ck cr cg cb m = m ∧
    readPixel Config.layout ci cj ck s = .refused .coordinateOutOfRange

/-- R42, R43: the LED index and the group base, as formulas, as bits, and through each other; the three bytes from the base
on hold the LED; and which two LEDs are a pair. -/
def Obligations.LedIndexAndGroupBase : Prop :=
  ∀ p : LedCoord,
    p.index = 16 * p.k.toNat + 4 * p.i.toNat + (3 - p.j.toNat) ∧ p.index < 64 ∧
    p.index = (p.k ++ p.i ++ p.flippedRow).toNat ∧
    p.groupBase = 24 * p.k.toNat + 6 * p.i.toNat + 3 * ((3 - p.j.toNat) / 2) ∧ p.groupBase ≤ 93 ∧
    p.groupBase = 3 * (p.index / 2) ∧ p.index / 2 < 32 ∧
    (p.odd = true ↔ p.index % 2 = 1) ∧
    (∀ ch, p.groupBase ≤ nibbleNumber Config.layout p.index ch / 2 ∧
      nibbleNumber Config.layout p.index ch / 2 ≤ p.groupBase + 2) ∧
    ∀ p' : LedCoord, p.index / 2 = p'.index / 2 ↔
      p.i = p'.i ∧ p.k = p'.k ∧ (3 - p.j.toNat) / 2 = (3 - p'.j.toNat) / 2

/-- R46: every framebuffer nibble belongs to exactly one LED and channel, and every LED index to exactly one in-range
coordinate. -/
def Obligations.NibblesAndLedsAreInBijection : Prop :=
  (∀ n ch, n < 64 → nibbleNumber Config.layout n ch < 192) ∧
  (∀ q, q < 192 → ∃ n ch, n < 64 ∧ nibbleNumber Config.layout n ch = q ∧
    ∀ n' ch', n' < 64 → nibbleNumber Config.layout n' ch' = q → n' = n ∧ ch' = ch) ∧
  ∀ n, n < 64 → (ledAt n).index = n ∧ ∀ p : LedCoord, p.index = n → p = ledAt n

/-- R45: the nibbles of LED `n` are `3n`, `3n + 1`, `3n + 2`, and in the three bytes of a pair group the even LED holds the
first byte and the high nibble of the second, the odd LED the rest. -/
def Obligations.LayoutOfTheGroupBytes : Prop :=
  (∀ n, nibbleNumber Config.layout n .red = 3 * n ∧ nibbleNumber Config.layout n .green = 3 * n + 1 ∧
    nibbleNumber Config.layout n .blue = 3 * n + 2) ∧
  ∀ (m : Memory) (p : LedCoord) (b0 b1 b2 : Byte), Memory.readByte m p.groupBase = some b0 →
    Memory.readByte m (p.groupBase + 1) = some b1 → Memory.readByte m (p.groupBase + 2) = some b2 →
    Memory.readLed Config.layout m p.index =
      if p.odd then some (b1.extractLsb' 0 4, b2.extractLsb' 4 4, b2.extractLsb' 0 4)
      else some (b0.extractLsb' 4 4, b0.extractLsb' 0 4, b1.extractLsb' 4 4)

/-- R110: a WRPIX in range, then any commands among which there is no CLEAR and no WRPIX to the same coordinate, then an
RDPIX of that coordinate: the RDPIX completes with the high four bits of each channel. -/
def Obligations.WriteThenReadGivesTheHighBits : Prop :=
  ∀ (ci cj ck : Coord) (cr cg cb : Byte) (is : List Instr) (s t : State) (p : LedCoord),
    coordinate ci cj ck = some p →
    (∀ i ∈ is, i ≠ .clear ∧ ∀ di dj dk dr dg db, i = .wrpix di dj dk dr dg db → coordinate di dj dk ≠ some p) →
    execAll (.wrpix ci cj ck cr cg cb :: is) s = .next t →
    ∃ u, exec (.rdpix ci cj ck) t = .next u ∧ u.fb = t.fb ∧ u.rspR = some (cr.extractLsb' 4 4) ∧
      u.rspG = some (cg.extractLsb' 4 4) ∧ u.rspB = some (cb.extractLsb' 4 4)

/-- D5: what the source says of reading back and of isolation holds of every layout that meets its constraints, at every
coordinate width. -/
def Obligations.EveryLayoutKeepsTheSourcesPromise : Prop :=
  ∀ (w : Nat) (L : Layout), L.meetsSource = true →
    ∀ (ci cj ck : BitVec w) (cr cg cb : Byte) (m : Memory) (p : LedCoord), coordinate ci cj ck = some p →
      Memory.readLed L (writePixel L ci cj ck cr cg cb m) p.index =
        some (cr.extractLsb' 4 4, cg.extractLsb' 4 4, cb.extractLsb' 4 4) ∧
      ∀ p' : LedCoord, p' ≠ p →
        Memory.readLed L (writePixel L ci cj ck cr cg cb m) p'.index = Memory.readLed L m p'.index

/-- C1, R43, R49: under every layout that meets the source's constraints a write changes at most two bytes, which are
neighbours inside the LED's own group. With the layout of R45 they are the first two bytes of the group for an even LED
and the last two for an odd one. -/
def Obligations.WrpixTouchesTwoNeighbouringBytes : Prop :=
  (∀ L : Layout, L.meetsSource = true → ∀ p : LedCoord, ∃ a, (a = p.groupBase ∨ a = p.groupBase + 1) ∧
    ∀ (m : Memory) (r g b : Nibble) (q : Nat), q / 2 ≠ a → q / 2 ≠ a + 1 →
      Memory.nib (Memory.writeLed L m p.index r g b) q = Memory.nib m q) ∧
  ∀ (p : LedCoord) (m : Memory) (r g b : Nibble) (q : Nat),
    q / 2 ≠ p.groupBase + (if p.odd then 1 else 0) → q / 2 ≠ p.groupBase + (if p.odd then 2 else 1) →
    Memory.nib (Memory.writeLed Config.layout m p.index r g b) q = Memory.nib m q

/-- R57: of two writes to the same coordinate, with any commands between them, the later one determines the LED's colour,
and next to each other the later one alone counts; a write to one LED leaves another's nibbles alone; writes to different LEDs, a pair's two among
them, leave the same state in either order. -/
def Obligations.LaterWritesWinAndOthersCommute : Prop :=
  ∀ (ci cj ck di dj dk : Coord) (cr cg cb dr dg db : Byte) (s : State) (p p' : LedCoord), Memory.wf s.fb = true →
    coordinate ci cj ck = some p → coordinate di dj dk = some p' →
    (∀ (is : List Instr) (t : State), p = p' →
      execAll (.wrpix ci cj ck cr cg cb :: is ++ [.wrpix di dj dk dr dg db]) s = .next t →
      Memory.readLed Config.layout t.fb p.index =
        some (dr.extractLsb' 4 4, dg.extractLsb' 4 4, db.extractLsb' 4 4)) ∧
    (∀ (t : State) (ch : Channel), p ≠ p' → exec (.wrpix di dj dk dr dg db) s = .next t →
      Memory.nib t.fb (nibbleNumber Config.layout p.index ch) =
        Memory.nib s.fb (nibbleNumber Config.layout p.index ch)) ∧
    (p = p' → execAll [.wrpix ci cj ck cr cg cb, .wrpix di dj dk dr dg db] s = exec (.wrpix di dj dk dr dg db) s) ∧
    (p ≠ p' → execAll [.wrpix ci cj ck cr cg cb, .wrpix di dj dk dr dg db] s =
      execAll [.wrpix di dj dk dr dg db, .wrpix ci cj ck cr cg cb] s)

/-- R52: reads change no nibble; repeating a WRPIX or a CLEAR leaves the state that one leaves; a write of one nibble
changes no other. -/
def Obligations.RepeatingAWriteChangesNothing : Prop :=
  (∀ (s t : State) (i : Instr), i.isRead = true → exec i s = .next t → t.fb = s.fb ∧ t.host = s.host) ∧
  (∀ (s t : State) (ci cj ck : Coord) (cr cg cb : Byte), Memory.wf s.fb = true →
    exec (.wrpix ci cj ck cr cg cb) s = .next t → exec (.wrpix ci cj ck cr cg cb) t = .next t) ∧
  (∀ s t : State, exec .clear s = .next t → exec .clear t = .next t) ∧
  ∀ (m : Memory) (q q' : Nat) (v : Option Nibble), q' ≠ q → Memory.nib (Memory.setNib m q v) q' = Memory.nib m q'

/-- R132: RDBYTE of an address in 0..95 drives the byte of its two nibbles and changes nothing else; where one of them is
undefined it faults with the address. -/
def Obligations.RdbyteDrivesTheByte : Prop :=
  ∀ (ca : BitVec 7) (s : State), ca.toNat ≤ 95 →
    (∀ hi lo, Memory.nib s.fb (2 * ca.toNat) = some hi → Memory.nib s.fb (2 * ca.toNat + 1) = some lo →
      exec (.rdbyte ca) s =
        .next { s with rspByte := some (hi ++ lo), rspR := none, rspG := none, rspB := none, handed := none }) ∧
    (Memory.nib s.fb (2 * ca.toNat) = none ∨ Memory.nib s.fb (2 * ca.toNat + 1) = none →
      exec (.rdbyte ca) s = .fault (.uninitialisedRead (.byteAddress ca.toNat)))

/-- R131: RDBYTE of an address above 95 is refused with the address, whatever the framebuffer holds. -/
def Obligations.RdbyteRefusesAbove95 : Prop :=
  ∀ (ca : BitVec 7) (s : State), 95 < ca.toNat → exec (.rdbyte ca) s = .refused (.byteAddressOutOfRange ca)

/-- R136: RDPIX of a valid coordinate drives the LED's nibbles `3n`, `3n + 1`, `3n + 2` and changes nothing else; where one
of them is undefined it faults with the LED index; and in bytes the even LED reads the first byte and the high nibble
of the second, the odd LED the rest. -/
def Obligations.RdpixDrivesTheLed : Prop :=
  ∀ (ci cj ck : Coord) (s : State) (p : LedCoord), coordinate ci cj ck = some p →
    (∀ r g b, Memory.nib s.fb (3 * p.index) = some r → Memory.nib s.fb (3 * p.index + 1) = some g →
      Memory.nib s.fb (3 * p.index + 2) = some b →
      exec (.rdpix ci cj ck) s =
        .next { s with rspByte := none, rspR := some r, rspG := some g, rspB := some b, handed := none }) ∧
    (Memory.nib s.fb (3 * p.index) = none ∨ Memory.nib s.fb (3 * p.index + 1) = none ∨
        Memory.nib s.fb (3 * p.index + 2) = none →
      exec (.rdpix ci cj ck) s = .fault (.uninitialisedRead (.ledIndex p.index))) ∧
    (p.odd = false → ∀ b0 b1, Memory.readByte s.fb p.groupBase = some b0 →
      Memory.readByte s.fb (p.groupBase + 1) = some b1 →
      exec (.rdpix ci cj ck) s = .next (s.drivePixel (b0.extractLsb' 4 4) (b0.extractLsb' 0 4) (b1.extractLsb' 4 4))) ∧
    (p.odd = true → ∀ b1 b2, Memory.readByte s.fb (p.groupBase + 1) = some b1 →
      Memory.readByte s.fb (p.groupBase + 2) = some b2 →
      exec (.rdpix ci cj ck) s = .next (s.drivePixel (b1.extractLsb' 0 4) (b2.extractLsb' 4 4) (b2.extractLsb' 0 4)))

/-- R135: RDPIX with any component outside 0..3 is refused, whatever the framebuffer holds. -/
def Obligations.RdpixRefusesOutOfRange : Prop :=
  ∀ (ci cj ck : Coord) (s : State), OutOfRange ci ∨ OutOfRange cj ∨ OutOfRange ck →
    exec (.rdpix ci cj ck) s = .refused .coordinateOutOfRange

/-- R75: a command with `op` 101, 110 or 111 is refused with that `op`, whatever its other fields and the state are. -/
def Obligations.ReservedOpcodesAreRefused : Prop :=
  ∀ (c : Command) (s : State), c.op = 0b101#3 ∨ c.op = 0b110#3 ∨ c.op = 0b111#3 →
    exec (decode c) s = .refused (.reservedOpcode c.op)

/-- R23, R101, R139: a command that leaves another framebuffer than it found is a CLEAR or a WRPIX of a valid coordinate.
-/
def Obligations.OnlyClearAndWrpixWriteTheFrame : Prop :=
  ∀ (i : Instr) (s t : State), exec i s = .next t → t.fb ≠ s.fb →
    i = .clear ∨ ∃ ci cj ck cr cg cb p, i = .wrpix ci cj ck cr cg cb ∧ coordinate ci cj ck = some p

/-- R70, U2 (that no frame stands after a command is the model's choice, log 3): `rsp_byte` is driven exactly after an RDBYTE that completes, `rsp_r`, `rsp_g`, `rsp_b` exactly after an RDPIX
that completes, and a host that reads an undriven field is refused. -/
def Obligations.ResponsesAreDrivenByTheirOwnCommand : Prop :=
  ∀ (i : Instr) (s t : State), exec i s = .next t →
    (t.rspByte.isSome = true ↔ ∃ ca, i = .rdbyte ca) ∧
    (t.rspR.isSome = true ↔ ∃ ci cj ck, i = .rdpix ci cj ck) ∧
    (t.rspG.isSome = true ↔ ∃ ci cj ck, i = .rdpix ci cj ck) ∧
    (t.rspB.isSome = true ↔ ∃ ci cj ck, i = .rdpix ci cj ck) ∧
    ((∀ ca, i ≠ .rdbyte ca) → hostReadByte t = .refused .responseNotDriven) ∧
    ((∀ ci cj ck, i ≠ .rdpix ci cj ck) → hostReadPixel t = .refused .responseNotDriven) ∧
    t.handed = none ∧ t.host = s.host

/-- R72: nothing but the framebuffer carries from one command to the next, and fields a format ignores change nothing.
Two states with the same framebuffer give the same outcome but for what the host does later. -/
def Obligations.OnlyTheFrameCarriesOver : Prop :=
  (∀ c c' : Command, c.masked (decode c).format = c'.masked (decode c).format → decode c' = decode c) ∧
  ∀ (i : Instr) (s s' : State), s.fb = s'.fb →
    (∀ t, exec i s = .next t → exec i s' = .next (t.withHost s'.host)) ∧
    (∀ r, exec i s = .fault r → exec i s' = .fault r) ∧
    (∀ r, exec i s = .refused r → exec i s' = .refused r)

/-- A step runs the decoded command: the first of the host's interactions is taken from its list and performed; with
none pending the state holds; and a word placed with `withFetchWord` is the next command run. R12 gives one step per
command and R165 that the framebuffer holds between commands. The rest is the model's choice: the pending list, the
handoff as one of its events and `withFetchWord` (log 2, its word packed as log 7 says), and that a step with no event
keeps the ports as they are (log 3). -/
def Obligations.StepRunsTheDecodedCommand : Prop :=
  (∀ (s : State) (c : Command) (es : List HostEvent), s.host = .command c :: es →
    step s = exec (decode c) { s with host := es }) ∧
  (∀ (s : State) (es : List HostEvent), s.host = .handoff :: es → step s = handoff { s with host := es }) ∧
  (∀ s : State, s.host = [] → step s = .next s) ∧
  (∀ (s : State) (nbits w : Nat) (i : Instr), decodeTableWord nbits w = some i →
    step (s.withFetchWord nbits w) = exec i s)

/-- Decode and encode agree, for every command with every operand at every value: by fields, by the number on the port,
and by the table's word; and what a decoded command encodes to is the command with its ignored fields at 0. How the fields are packed into a
number is the model's choice (log 7). -/
def Obligations.EncodeAndDecodeAgree : Prop :=
  (∀ i : Instr, decode (encode i) = i ∧ encodeWord i < 2 ^ portBits ∧ decodeWord (encodeWord i) = .ok i ∧
    decodeTableWord 136 (encodeWord i) = some i) ∧
  ∀ c : Command, encode (decode c) = c.masked (decode c).format

/-- The port's fields and the number that carries them determine each other, and a number with a bit above the fields
is rejected by name (the model's packing, log 7). -/
def Obligations.PortBitsCarryEveryField : Prop :=
  (∀ c : Command, Command.ofBits c.toBits = c ∧ c.toBits < 2 ^ portBits) ∧
  (∀ w, w < 2 ^ portBits → (Command.ofBits w).toBits = w) ∧
  ∀ w, 2 ^ portBits ≤ w → decodeWord w = .error .noSuchPortBit

/-- R73 and the encodings of 95_test_vectors.md P1 and P5: a NOP, a WRPIX, an RDBYTE and an RDPIX, each with at least one
ignored field set, and a CLEAR with every other field 0, written out field by field, decode to their instructions; and
the bare table words of the three reserved rows decode to those rows (how a table word is laid over the fields is the
model's choice, log 7). -/
def Obligations.WrittenOutCommandsDecode : Prop :=
  decode { op := 0b000#3, ci := 7, cj := 7, ck := 7, cr := 1, cg := 2, cb := 3, ca := 4 } = .nop ∧
  decode { op := 0b001#3, ci := 0, cj := 0, ck := 0, cr := 0, cg := 0, cb := 0, ca := 0 } = .clear ∧
  decode { op := 0b010#3, ci := 0x00000000, cj := 0x00000003, ck := 0, cr := 0xFF, cg := 0x80, cb := 0x10, ca := 85 } =
    .wrpix 0 3 0 0xFF 0x80 0x10 ∧
  decode { op := 0b011#3, ci := 9, cj := 0, ck := 0, cr := 0, cg := 0, cb := 0, ca := 0x07 } = .rdbyte 7 ∧
  decode { op := 0b100#3, ci := 0x00000000, cj := 0x00000002, ck := 0x00000000, cr := 9, cg := 0, cb := 0, ca := 0 } =
    .rdpix 0 2 0 ∧
  decodeTableWord 8 5 = some .reserved101 ∧ decodeTableWord 8 6 = some .reserved110 ∧
  decodeTableWord 8 7 = some .reserved111

/-- R48, R53, R154: a handoff of a framebuffer with no undefined nibble completes, gives the 96 bytes in address order and
changes neither the framebuffer nor the host's list; otherwise it faults with the lowest byte that has an undefined
nibble. That it also withdraws every response field, and how the frame it gives is held, is the model's choice (log 3):
R53 and R185 do not say it. -/
def Obligations.HandoffGivesTheFrame : Prop :=
  ∀ s : State,
    (Memory.AllDefined s.fb → ∃ f, handoff s = .next (s.handFrame f) ∧ f.length = 96 ∧
      ∀ a, a < 96 → f[a]? = Memory.readByte s.fb a) ∧
    ∀ a, a < 96 → Memory.readByte s.fb a = none → (∀ b, b < a → (Memory.readByte s.fb b).isSome = true) →
      handoff s = .fault (.uninitialisedFrame a)

/-- R154: a run that faults stops there and no later command clears it. That a refusal, for which R153 says only that a
mark stays, likewise ends the run and leaves no state is the model's reading (log 9, DEDUCED). The first two clauses
are facts of the host's `Core.run`, of any step; what is the model's own is the last two, on `execAll`. -/
def Obligations.AStopEndsTheRun : Prop :=
  (∀ (s : State) (r : Fault) (n : Nat), step s = .fault r → core.run (n + 1) s = .fault r) ∧
  (∀ (s : State) (r : Refusal) (n : Nat), step s = .refused r → core.run (n + 1) s = .refused r) ∧
  (∀ (is js : List Instr) (s : State) (r : Fault), execAll is s = .fault r → execAll (is ++ js) s = .fault r) ∧
  ∀ (is js : List Instr) (s : State) (r : Refusal), execAll is s = .refused r → execAll (is ++ js) s = .refused r

/-- R56: after any commands from any state each nibble holds what the latest command that wrote it wrote, or what it held
before them where none did; and the reads return exactly that, or fault where it is undefined. -/
def Obligations.ReadsSeeTheLatestWrite : Prop :=
  ∀ (is : List Instr) (s t : State), execAll is s = .next t →
    (∀ q, q < 192 → Memory.nib t.fb q = nibbleHistory q is (Memory.nib s.fb q)) ∧
    (∀ (ca : BitVec 7) (hi lo : Nibble), ca.toNat ≤ 95 →
      nibbleHistory (2 * ca.toNat) is (Memory.nib s.fb (2 * ca.toNat)) = some hi →
      nibbleHistory (2 * ca.toNat + 1) is (Memory.nib s.fb (2 * ca.toNat + 1)) = some lo →
      exec (.rdbyte ca) t = .next (t.driveByte (hi ++ lo))) ∧
    (∀ ca : BitVec 7, ca.toNat ≤ 95 →
      nibbleHistory (2 * ca.toNat) is (Memory.nib s.fb (2 * ca.toNat)) = none ∨
        nibbleHistory (2 * ca.toNat + 1) is (Memory.nib s.fb (2 * ca.toNat + 1)) = none →
      exec (.rdbyte ca) t = .fault (.uninitialisedRead (.byteAddress ca.toNat))) ∧
    (∀ (ci cj ck : Coord) (p : LedCoord), coordinate ci cj ck = some p →
      nibbleHistory (3 * p.index) is (Memory.nib s.fb (3 * p.index)) = none ∨
        nibbleHistory (3 * p.index + 1) is (Memory.nib s.fb (3 * p.index + 1)) = none ∨
        nibbleHistory (3 * p.index + 2) is (Memory.nib s.fb (3 * p.index + 2)) = none →
      exec (.rdpix ci cj ck) t = .fault (.uninitialisedRead (.ledIndex p.index))) ∧
    ∀ (ci cj ck : Coord) (p : LedCoord) (r g b : Nibble), coordinate ci cj ck = some p →
      nibbleHistory (3 * p.index) is (Memory.nib s.fb (3 * p.index)) = some r →
      nibbleHistory (3 * p.index + 1) is (Memory.nib s.fb (3 * p.index + 1)) = some g →
      nibbleHistory (3 * p.index + 2) is (Memory.nib s.fb (3 * p.index + 2)) = some b →
      exec (.rdpix ci cj ck) t = .next (t.drivePixel r g b)

/-- R138: after pixel writes that reach every coordinate, RDPIX of each coordinate completes and returns the high four bits
of the last colour written to it. It holds from every state, so from one left by CLEAR. -/
def Obligations.WholeFrameRoundTrip : Prop :=
  ∀ (is : List Instr) (s : State), is.all Instr.isPixelWrite = true →
    (∀ p : LedCoord, (colourHistory p is none).isSome = true) →
    ∃ t, execAll is s = .next t ∧
      ∀ (ci cj ck : Coord) (p : LedCoord), coordinate ci cj ck = some p →
        ∃ r g b, colourHistory p is none = some (r, g, b) ∧
          exec (.rdpix ci cj ck) t = .next (t.drivePixel r g b)

/-- R183: a frame built as the lifecycle says, CLEAR and then any pixel writes, from any state, is handed off whole, and
its 96 bytes are the packing (R79, R80) of the last colour written to each LED, black where none was. -/
def Obligations.LifecycleFrameIsThePackedColours : Prop :=
  ∀ (ws : List Instr) (s : State), ws.all Instr.isPixelWrite = true →
    observe (.clear :: ws) s =
      .next { frame := packFrame fun n => (colourHistory (ledAt n) ws (some (0, 0, 0))).getD (0, 0, 0),
              responses := [] }

/-- R182, R185, R190: once CLEAR has been issued, every run of commands that keeps the host's duties completes, ends in a
whole frame of 96 bytes, and drives one response for each read. -/
def Obligations.LegalRunsAfterClearComplete : Prop :=
  ∀ (is : List Instr) (s : State), legalRun is = true →
    ∃ o, observe (.clear :: is) s = .next o ∧ o.frame.length = 96 ∧
      o.responses.length = is.countP Instr.isRead

/-- The machine's steps on a list of commands are the commands one after another: `execAll`, which the statements on runs
use, is the machine of `core`. The pending list is the model's choice (log 2). -/
def Obligations.MachineRunIsTheCommandList : Prop :=
  ∀ (is : List Instr) (s : State) (es : List HostEvent),
    core.run is.length { s with host := is.map (fun i => .command (encode i)) ++ es } =
      execAll is { s with host := es }

/-- R82, R130: RDFRAME is the 96 RDBYTEs in address order, and on a framebuffer with no undefined nibble their responses
are the frame, byte for byte, and the frame is unchanged. -/
def Obligations.RdframeReadsTheFrame : Prop :=
  ∃ is, assemble .rdframe = .ok is ∧ is = (List.range 96).map (fun a => .rdbyte (BitVec.ofNat 7 a)) ∧
    ∀ s : State, Memory.AllDefined s.fb → ∃ f, Memory.frame s.fb = some f ∧
      observe is s = .next { frame := f, responses := f.map Response.byte }

/-- R82: FILL is 64 writes and leaves every LED in its colour, from any state; BLANK leaves its LED black. -/
def Obligations.FillColoursEveryLed : Prop :=
  (∀ r g b : Byte, ∃ is, assemble (.fill r.toNat g.toNat b.toNat) = .ok is ∧ is.length = 64 ∧
    ∀ s : State, ∃ t, execAll is s = .next t ∧ ∀ p : LedCoord,
      Memory.readLed Config.layout t.fb p.index = some (r.extractLsb' 4 4, g.extractLsb' 4 4, b.extractLsb' 4 4)) ∧
  ∀ (ci cj ck : Coord), assemble (.blank ci.toInt cj.toInt ck.toInt) = .ok [.wrpix ci cj ck 0 0 0]

/-- R81: a coordinate operand is taken exactly where it has a two's-complement value of the port's width, and is that
value; a colour exactly in 0..255; a byte address exactly in 0..127. (That a coordinate beyond the width is rejected is
the model's choice, log 8.) -/
def Obligations.AssemblerTakesOperandsInRange : Prop :=
  (∀ (v : Int) (c : Coord), asmCoord v = .ok c ↔ c.toInt = v) ∧
  (∀ v : Int, (∃ c, asmCoord v = .ok c) ↔ -2147483648 ≤ v ∧ v ≤ 2147483647) ∧
  (∀ (v : Int) (c : Byte), asmColour v = .ok c ↔ (c.toNat : Int) = v) ∧
  (∀ v : Int, (∃ c, asmColour v = .ok c) ↔ 0 ≤ v ∧ v ≤ 255) ∧
  (∀ (v : Int) (a : BitVec 7), asmAddress v = .ok a ↔ (a.toNat : Int) = v) ∧
  ∀ v : Int, (∃ a, asmAddress v = .ok a) ↔ 0 ≤ v ∧ v ≤ 127

/-- R106's two end addresses: the LED at (3, 0, 3) is the last and writes the low nibble of `fb[94]` and all of `fb[95]`;
the LED at (0, 3, 0) is the first and writes `fb[0]` and the high nibble of `fb[1]`; each keeps its partner's nibble. -/
def Obligations.FirstAndLastLedAddresses : Prop :=
  ∀ (cr cg cb : Byte) (s : State),
    (∃ t, exec (.wrpix 3 0 3 cr cg cb) s = .next t ∧
      Memory.nib t.fb 188 = Memory.nib s.fb 188 ∧ Memory.nib t.fb 189 = some (cr.extractLsb' 4 4) ∧
      Memory.readByte t.fb 95 = some (cg.extractLsb' 4 4 ++ cb.extractLsb' 4 4)) ∧
    ∃ t, exec (.wrpix 0 3 0 cr cg cb) s = .next t ∧
      Memory.readByte t.fb 0 = some (cr.extractLsb' 4 4 ++ cg.extractLsb' 4 4) ∧
      Memory.nib t.fb 2 = some (cb.extractLsb' 4 4) ∧ Memory.nib t.fb 3 = Memory.nib s.fb 3
end

