-- ==== Sys2Proof/Laws/Memory.lean ====
section
/-! SUPPORT. The framebuffer: reading after writing, the canonical form, and equality by reading. -/

namespace Sys2Proof.Machine.Memory

/-! ## The canonical form -/

theorem wfFrom_cons {lo q : Nat} {v : Nibble} {m : Memory} :
    wfFrom lo ((q, v) :: m) = true ↔ lo ≤ q ∧ q < 192 ∧ wfFrom (q + 1) m = true := by
  simp [wfFrom, and_assoc]

theorem wfFrom_mono {lo lo' : Nat} (h : lo' ≤ lo) {m : Memory} (hm : wfFrom lo m = true) :
    wfFrom lo' m = true := by
  cases m with
  | nil => rfl
  | cons c m =>
    obtain ⟨hq, hlt, hm⟩ := wfFrom_cons.1 hm
    exact wfFrom_cons.2 ⟨h.trans hq, hlt, hm⟩

/-- Below its first number a canonical framebuffer lists nothing. -/
theorem nib_eq_none_of_wfFrom {lo q : Nat} (hq : q < lo) {m : Memory} (hm : wfFrom lo m = true) :
    nib m q = none := by
  induction m generalizing lo with
  | nil => rfl
  | cons c m ih =>
    obtain ⟨hp, -, hm⟩ := wfFrom_cons.1 hm
    have hne : c.1 ≠ q := by omega
    simp [nib, hne, ih (by omega) hm]

/-- No nibble from 192 on is defined. -/
theorem nib_eq_none_of_wf {q : Nat} (hq : 192 ≤ q) {lo : Nat} {m : Memory} (hm : wfFrom lo m = true) :
    nib m q = none := by
  induction m generalizing lo with
  | nil => rfl
  | cons c m ih =>
    obtain ⟨-, hp, hm⟩ := wfFrom_cons.1 hm
    have hne : c.1 ≠ q := by omega
    simp [nib, hne, ih hm]

/-- One step of a write along the list. -/
theorem setNib_cons (c : Nat × Nibble) (m : Memory) (q : Nat) (v : Option Nibble) :
    setNib (c :: m) q v =
      if q < c.1 then
        match v with
        | none => c :: m
        | some x => (q, x) :: c :: m
      else if q = c.1 then
        match v with
        | none => m
        | some x => (q, x) :: m
      else c :: setNib m q v := by
  cases v <;> simp [setNib]

theorem wfFrom_setNib {lo q : Nat} (hlo : lo ≤ q) (hq : q < 192) (v : Option Nibble) {m : Memory}
    (hm : wfFrom lo m = true) : wfFrom lo (setNib m q v) = true := by
  induction m generalizing lo with
  | nil => cases v <;> simp [setNib, wfFrom, hlo, hq]
  | cons c m ih =>
    obtain ⟨hp, hp', hm'⟩ := wfFrom_cons.1 hm
    rw [setNib_cons]
    split
    · cases v with
      | none => exact hm
      | some x => exact wfFrom_cons.2 ⟨hlo, hq, wfFrom_cons.2 ⟨by omega, hp', hm'⟩⟩
    · split
      · cases v with
        | none => exact wfFrom_mono (by omega) hm'
        | some x => exact wfFrom_cons.2 ⟨hlo, hq, by simp_all⟩
      · exact wfFrom_cons.2 ⟨hp, hp', ih (by omega) hm'⟩

/-- Every write of a nibble keeps the canonical form. -/
theorem wf_setNib {q : Nat} (hq : q < 192) (v : Option Nibble) {m : Memory} (hm : wf m = true) :
    wf (setNib m q v) = true := wfFrom_setNib (Nat.zero_le _) hq v hm

/-! ## Reading after writing -/

/-- A write leaves every other nibble alone (R9). -/
theorem nib_setNib_ne {q q' : Nat} (h : q' ≠ q) (v : Option Nibble) (m : Memory) :
    nib (setNib m q v) q' = nib m q' := by
  induction m with
  | nil => cases v <;> simp [setNib, nib, h.symm]
  | cons c m ih =>
    rw [setNib_cons]
    split
    · cases v <;> simp [nib, h.symm]
    · split
      · subst_vars
        cases v <;> simp [nib, h.symm]
      · simp [nib, ih]

/-- A read after a write of a value gives the value. -/
@[simp] theorem nib_setNib_some (m : Memory) (q : Nat) (v : Nibble) : nib (setNib m q (some v)) q = some v := by
  induction m with
  | nil => simp [setNib, nib]
  | cons c m ih =>
    rw [setNib_cons]
    split
    · simp [nib]
    · split
      · simp [nib]
      · rename_i h
        simp [nib, Ne.symm h, ih]

/-- In a canonical framebuffer a read after any write gives what was written. -/
theorem nib_setNib_self {lo : Nat} {m : Memory} (hm : wfFrom lo m = true) (q : Nat) (v : Option Nibble) :
    nib (setNib m q v) q = v := by
  cases v with
  | some v => exact nib_setNib_some m q v
  | none =>
    induction m generalizing lo with
    | nil => rfl
    | cons c m ih =>
      obtain ⟨-, -, hm'⟩ := wfFrom_cons.1 hm
      rw [setNib_cons]
      split
      · exact nib_eq_none_of_wfFrom (lo := c.1) ‹_› (wfFrom_cons.2 ⟨le_refl _, (wfFrom_cons.1 hm).2.1, hm'⟩)
      · split
        · subst_vars
          exact nib_eq_none_of_wfFrom (Nat.lt_succ_self _) hm'
        · rename_i h
          simp [nib, Ne.symm h, ih hm']

/-- One read after one write of a value, by cases. -/
theorem nib_setNib (m : Memory) (q q' : Nat) (v : Nibble) :
    nib (setNib m q (some v)) q' = if q' = q then some v else nib m q' := by
  split
  · subst_vars; simp
  · exact nib_setNib_ne ‹_› _ _

/-! ## Equality by reading -/

theorem ext_from {lo : Nat} {m m' : Memory} (hm : wfFrom lo m = true) (hm' : wfFrom lo m' = true)
    (h : ∀ q, nib m q = nib m' q) : m = m' := by
  induction m generalizing lo m' with
  | nil =>
    cases m' with
    | nil => rfl
    | cons c m' => simpa [nib] using h c.1
  | cons c m ih =>
    obtain ⟨-, hc2, hm1⟩ := wfFrom_cons.1 hm
    cases m' with
    | nil => simpa [nib] using h c.1
    | cons d m' =>
      obtain ⟨-, hd2, hm2⟩ := wfFrom_cons.1 hm'
      have hkey : c.1 = d.1 := by
        rcases Nat.lt_trichotomy c.1 d.1 with hlt | heq | hlt
        · have h1 := h c.1
          have hnone := nib_eq_none_of_wfFrom (m := d :: m') hlt (wfFrom_cons.2 ⟨le_refl _, hd2, hm2⟩)
          simp [nib] at h1 hnone
          simp_all
        · exact heq
        · have h1 := h d.1
          have hnone := nib_eq_none_of_wfFrom (m := c :: m) hlt (wfFrom_cons.2 ⟨le_refl _, hc2, hm1⟩)
          simp [nib] at h1 hnone
          simp_all
      obtain ⟨p, v⟩ := c
      obtain ⟨p', v'⟩ := d
      obtain rfl : p = p' := hkey
      have hv : v = v' := by simpa [nib] using h p
      subst hv
      congr 1
      refine ih hm1 hm2 fun q => ?_
      by_cases hq : p = q
      · subst hq
        rw [nib_eq_none_of_wfFrom (Nat.lt_succ_self _) hm1, nib_eq_none_of_wfFrom (Nat.lt_succ_self _) hm2]
      · simpa [nib, hq] using h q

/-- Two canonical framebuffers that read the same everywhere are the same list. -/
theorem ext_of_nib {m m' : Memory} (hm : wf m = true) (hm' : wf m' = true) (h : ∀ q, nib m q = nib m' q) :
    m = m' := ext_from hm hm' h

/-! ## The zeroed framebuffer -/

theorem nib_map_zero (k lo q : Nat) :
    nib ((List.range' lo k).map fun q => (q, 0#4)) q = if lo ≤ q ∧ q < lo + k then some 0#4 else none := by
  induction k generalizing lo with
  | zero => simp [nib]
  | succ k ih =>
    simp only [List.range'_succ, List.map_cons, nib, ih]
    split_ifs <;> first | rfl | omega

/-- After CLEAR a nibble of the framebuffer is 0 and no other is listed (R122). -/
theorem nib_zeroed (q : Nat) : nib zeroed q = if q < 192 then some 0#4 else none := by
  simpa [zeroed, List.range_eq_range'] using nib_map_zero 192 0 q

theorem wfFrom_map_zero (k lo : Nat) (h : lo + k ≤ 192) :
    wfFrom lo ((List.range' lo k).map fun q => (q, 0#4)) = true := by
  induction k generalizing lo with
  | zero => rfl
  | succ k ih =>
    simp only [List.range'_succ, List.map_cons]
    exact wfFrom_cons.2 ⟨le_refl _, by omega, ih (lo + 1) (by omega)⟩

/-- The zeroed framebuffer is canonical. -/
theorem wf_zeroed : wf zeroed = true := by
  simpa [zeroed, wf, List.range_eq_range'] using wfFrom_map_zero 192 0 (le_refl _)

/-! ## Bytes and LEDs keep the canonical form -/

theorem wf_setHalves {a : Nat} (ha : a < 96) (hi lo : Option Nibble) {m : Memory} (hm : wf m = true) :
    wf (setHalves m a hi lo) = true :=
  wf_setNib (by omega) _ (wf_setNib (by omega) _ hm)

theorem wf_writeByte {a : Nat} (ha : a < 96) (v : Byte) {m : Memory} (hm : wf m = true) :
    wf (writeByte m a v) = true := wf_setHalves ha _ _ hm

/-- What a read of a byte answers, said once. -/
theorem readByte_eq_some {m : Memory} {a : Nat} {v : Byte} :
    readByte m a = some v ↔
      ∃ hi lo, nib m (2 * a) = some hi ∧ nib m (2 * a + 1) = some lo ∧ joinNibbles hi lo = v := by
  unfold readByte
  split <;> simp_all

theorem readByte_eq_none {m : Memory} {a : Nat} :
    readByte m a = none ↔ nib m (2 * a) = none ∨ nib m (2 * a + 1) = none := by
  unfold readByte
  cases h1 : nib m (2 * a) <;> cases h2 : nib m (2 * a + 1) <;> simp

/-- A stretch of whole bytes reads as the list of them, in address order. -/
theorem bytesFrom_eq_some (m : Memory) (a k : Nat)
    (h : ∀ b, a ≤ b → b < a + k → (readByte m b).isSome = true) :
    ∃ f, bytesFrom m a k = some f ∧ f.length = k ∧ ∀ b, b < k → f[b]? = readByte m (a + b) := by
  induction k generalizing a with
  | zero => exact ⟨[], rfl, rfl, by simp⟩
  | succ k ih =>
    obtain ⟨f, h1, h2, h3⟩ := ih (a + 1) fun b hb hb' => h b (by omega) (by omega)
    obtain ⟨v, hv⟩ := Option.isSome_iff_exists.1 (h a le_rfl (by omega))
    refine ⟨v :: f, by simp [bytesFrom, hv, h1], by simp [h2], fun b hb => ?_⟩
    cases b with
    | zero => simp [hv]
    | succ b => simp only [List.getElem?_cons_succ, h3 b (by omega)]; congr 1; omega

/-- A stretch with a byte that is not whole reads as none, and the lowest such byte is the one found. -/
theorem bytesFrom_eq_none (m : Memory) (a k b : Nat) (h : readByte m b = none) (h1 : a ≤ b) (h2 : b < a + k)
    (h3 : ∀ c, a ≤ c → c < b → (readByte m c).isSome = true) :
    bytesFrom m a k = none ∧ firstUndefined m a k = b := by
  induction k generalizing a with
  | zero => omega
  | succ k ih =>
    by_cases e : a = b
    · subst e
      simp [bytesFrom, firstUndefined, h]
    · obtain ⟨i1, i2⟩ := ih (a + 1) (by omega) (by omega) fun c hc hc' => h3 c (by omega) hc'
      have hs := h3 a le_rfl (by omega)
      refine ⟨by simp [bytesFrom, i1], ?_⟩
      rw [firstUndefined, if_neg (by simp [Option.isSome_iff_ne_none.1 hs]), i2]

/-- A frame read has as many bytes as were asked for. -/
theorem bytesFrom_length {m : Memory} {a k : Nat} {f : List Byte} (h : bytesFrom m a k = some f) : f.length = k := by
  induction k generalizing a f with
  | zero => simp [bytesFrom] at h; simp [← h]
  | succ k ih =>
    simp only [bytesFrom] at h
    split at h
    · next hvs => simp only [Option.some.injEq] at h; subst h; simp [ih hvs]
    · simp at h

/-- What a read of an LED answers, said once. -/
theorem readLed_eq_some {L : Layout} {m : Memory} {n : Nat} {r g b : Nibble} :
    readLed L m n = some (r, g, b) ↔ nib m (nibbleNumber L n .red) = some r ∧
      nib m (nibbleNumber L n .green) = some g ∧ nib m (nibbleNumber L n .blue) = some b := by
  unfold readLed
  cases h1 : nib m (nibbleNumber L n .red) <;> cases h2 : nib m (nibbleNumber L n .green) <;>
    cases h3 : nib m (nibbleNumber L n .blue) <;> simp

end Sys2Proof.Machine.Memory
end

