-- ==== Sys2Proof/Laws/Operands.lean ====
section
/-! SUPPORT. The addresser: which nibbles a layout gives a LED, and the LED index of a coordinate. -/

namespace Sys2Proof.Machine

theorem layout_slots (L : Layout) (h : L.meetsSource = true) :
    (∀ o ch, L.slot o ch < 6) ∧ ∀ o ch o' ch', L.slot o ch = L.slot o' ch' → o = o' ∧ ch = ch' := by
  obtain ⟨a, b, c, d, e, f⟩ := L
  simp only [Layout.meetsSource, Layout.oneByteAndAHalf, Bool.and_eq_true, List.all_cons, List.all_nil,
    bne_iff_ne, decide_eq_true_eq] at h
  refine ⟨?_, ?_⟩
  · rintro (_ | _) (_ | _ | _) <;> simp only [Layout.slot] <;> omega
  · rintro (_ | _) (_ | _ | _) (_ | _) (_ | _ | _) <;> simp only [Layout.slot, reduceCtorEq, and_self, and_true,
      and_false, implies_true] <;> omega

/-- A LED's nibbles are framebuffer nibbles. -/
theorem nibbleNumber_lt {L : Layout} (h : L.meetsSource = true) {n : Nat} (hn : n < 64) (ch : Channel) :
    nibbleNumber L n ch < 192 := by
  have := (layout_slots L h).1 (n % 2 == 1) ch
  unfold nibbleNumber
  omega

/-- Two LEDs share no nibble, and a LED's channels share none. -/
theorem nibbleNumber_inj {L : Layout} (h : L.meetsSource = true) {n n' : Nat} {ch ch' : Channel}
    (he : nibbleNumber L n ch = nibbleNumber L n' ch') : n = n' ∧ ch = ch' := by
  have h1 := (layout_slots L h).1 (n % 2 == 1) ch
  have h2 := (layout_slots L h).1 (n' % 2 == 1) ch'
  unfold nibbleNumber at he
  have hs : L.slot (n % 2 == 1) ch = L.slot (n' % 2 == 1) ch' := by omega
  obtain ⟨ho, hc⟩ := (layout_slots L h).2 _ _ _ _ hs
  refine ⟨?_, hc⟩
  have hpar : n % 2 = n' % 2 := by
    rcases Nat.mod_two_eq_zero_or_one n with e | e <;> rcases Nat.mod_two_eq_zero_or_one n' with e' | e' <;>
      simp_all
  omega

/-- The layout of R45 is one the source allows. -/
theorem config_layout_meetsSource : Config.layout.meetsSource = true := by decide

/-- The place of a channel within a LED word (R79). -/
def channelPlace : Channel → Nat
  | .red => 0
  | .green => 1
  | .blue => 2

/-- With the layout of R45 the nibbles of LED `n` are `3n`, `3n + 1` and `3n + 2`. -/
theorem nibbleNumber_config (n : Nat) (ch : Channel) :
    nibbleNumber Config.layout n ch = 3 * n + channelPlace ch := by
  unfold nibbleNumber
  rcases Nat.mod_two_eq_zero_or_one n with e | e <;> rw [e] <;> cases ch <;>
    simp [Config.layout, Layout.slot, channelPlace] <;> omega

/-- The LED index is below 64. -/
theorem LedCoord.index_lt (p : LedCoord) : p.index < 64 := by
  have := p.i.isLt
  have := p.k.isLt
  have := p.flippedRow.isLt
  unfold LedCoord.index
  omega

/-- Different coordinates have different LED indices. -/
theorem LedCoord.index_inj {p q : LedCoord} (h : p.index = q.index) : p = q := by
  have h1 := p.i.isLt
  have h2 := p.k.isLt
  have h3 := p.flippedRow.isLt
  have h4 := q.i.isLt
  have h5 := q.k.isLt
  have h6 := q.flippedRow.isLt
  unfold LedCoord.index at h
  have hk : p.k = q.k := BitVec.eq_of_toNat_eq (by omega)
  have hi : p.i = q.i := BitVec.eq_of_toNat_eq (by omega)
  have hr : p.flippedRow = q.flippedRow := BitVec.eq_of_toNat_eq (by omega)
  have hj : p.j = q.j := by
    unfold LedCoord.flippedRow at hr
    simpa using hr
  cases p
  cases q
  simp_all

/-- Joining two nibbles and taking the halves back. -/
@[simp] theorem hiNibble_joinNibbles (hi lo : Nibble) : hiNibble (joinNibbles hi lo) = hi := by
  revert hi lo; decide

@[simp] theorem loNibble_joinNibbles (hi lo : Nibble) : loNibble (joinNibbles hi lo) = lo := by
  revert hi lo; decide

end Sys2Proof.Machine
end

