-- ==== Sys2Proof/Laws/State.lean ====
section
/-! SUPPORT. Every field after every update of State, once. -/

namespace Sys2Proof.Machine.State

@[simp] theorem undriven_fb (s : State) : s.undriven.fb = s.fb := rfl
@[simp] theorem undriven_rspByte (s : State) : s.undriven.rspByte = none := rfl
@[simp] theorem undriven_rspR (s : State) : s.undriven.rspR = none := rfl
@[simp] theorem undriven_rspG (s : State) : s.undriven.rspG = none := rfl
@[simp] theorem undriven_rspB (s : State) : s.undriven.rspB = none := rfl
@[simp] theorem undriven_handed (s : State) : s.undriven.handed = none := rfl
@[simp] theorem undriven_host (s : State) : s.undriven.host = s.host := rfl
@[simp] theorem undriven_undriven (s : State) : s.undriven.undriven = s.undriven := rfl

@[simp] theorem driveByte_fb (s : State) (v : Byte) : (s.driveByte v).fb = s.fb := rfl
@[simp] theorem driveByte_rspByte (s : State) (v : Byte) : (s.driveByte v).rspByte = some v := rfl
@[simp] theorem driveByte_rspR (s : State) (v : Byte) : (s.driveByte v).rspR = none := rfl
@[simp] theorem driveByte_rspG (s : State) (v : Byte) : (s.driveByte v).rspG = none := rfl
@[simp] theorem driveByte_rspB (s : State) (v : Byte) : (s.driveByte v).rspB = none := rfl
@[simp] theorem driveByte_handed (s : State) (v : Byte) : (s.driveByte v).handed = none := rfl
@[simp] theorem driveByte_host (s : State) (v : Byte) : (s.driveByte v).host = s.host := rfl

@[simp] theorem drivePixel_fb (s : State) (r g b : Nibble) : (s.drivePixel r g b).fb = s.fb := rfl
@[simp] theorem drivePixel_rspByte (s : State) (r g b : Nibble) : (s.drivePixel r g b).rspByte = none := rfl
@[simp] theorem drivePixel_rspR (s : State) (r g b : Nibble) : (s.drivePixel r g b).rspR = some r := rfl
@[simp] theorem drivePixel_rspG (s : State) (r g b : Nibble) : (s.drivePixel r g b).rspG = some g := rfl
@[simp] theorem drivePixel_rspB (s : State) (r g b : Nibble) : (s.drivePixel r g b).rspB = some b := rfl
@[simp] theorem drivePixel_handed (s : State) (r g b : Nibble) : (s.drivePixel r g b).handed = none := rfl
@[simp] theorem drivePixel_host (s : State) (r g b : Nibble) : (s.drivePixel r g b).host = s.host := rfl

@[simp] theorem withFb_fb (s : State) (m : Memory) : (s.withFb m).fb = m := rfl
@[simp] theorem withFb_rspByte (s : State) (m : Memory) : (s.withFb m).rspByte = none := rfl
@[simp] theorem withFb_rspR (s : State) (m : Memory) : (s.withFb m).rspR = none := rfl
@[simp] theorem withFb_rspG (s : State) (m : Memory) : (s.withFb m).rspG = none := rfl
@[simp] theorem withFb_rspB (s : State) (m : Memory) : (s.withFb m).rspB = none := rfl
@[simp] theorem withFb_handed (s : State) (m : Memory) : (s.withFb m).handed = none := rfl
@[simp] theorem withFb_host (s : State) (m : Memory) : (s.withFb m).host = s.host := rfl

@[simp] theorem handFrame_fb (s : State) (f : List Byte) : (s.handFrame f).fb = s.fb := rfl
@[simp] theorem handFrame_rspByte (s : State) (f : List Byte) : (s.handFrame f).rspByte = none := rfl
@[simp] theorem handFrame_rspR (s : State) (f : List Byte) : (s.handFrame f).rspR = none := rfl
@[simp] theorem handFrame_rspG (s : State) (f : List Byte) : (s.handFrame f).rspG = none := rfl
@[simp] theorem handFrame_rspB (s : State) (f : List Byte) : (s.handFrame f).rspB = none := rfl
@[simp] theorem handFrame_handed (s : State) (f : List Byte) : (s.handFrame f).handed = some f := rfl
@[simp] theorem handFrame_host (s : State) (f : List Byte) : (s.handFrame f).host = s.host := rfl

@[simp] theorem withHost_fb (s : State) (es : List HostEvent) : (s.withHost es).fb = s.fb := rfl
@[simp] theorem withHost_rspByte (s : State) (es : List HostEvent) : (s.withHost es).rspByte = s.rspByte := rfl
@[simp] theorem withHost_rspR (s : State) (es : List HostEvent) : (s.withHost es).rspR = s.rspR := rfl
@[simp] theorem withHost_rspG (s : State) (es : List HostEvent) : (s.withHost es).rspG = s.rspG := rfl
@[simp] theorem withHost_rspB (s : State) (es : List HostEvent) : (s.withHost es).rspB = s.rspB := rfl
@[simp] theorem withHost_handed (s : State) (es : List HostEvent) : (s.withHost es).handed = s.handed := rfl
@[simp] theorem withHost_host (s : State) (es : List HostEvent) : (s.withHost es).host = es := rfl
@[simp] theorem withHost_withHost (s : State) (es fs : List HostEvent) :
    (s.withHost es).withHost fs = s.withHost fs := rfl
@[simp] theorem withHost_self (s : State) : s.withHost s.host = s := rfl

/-- The four updates of a transaction commute with a change of what the host does next. -/
@[simp] theorem withHost_undriven (s : State) (es : List HostEvent) :
    (s.withHost es).undriven = s.undriven.withHost es := rfl
@[simp] theorem withHost_driveByte (s : State) (es : List HostEvent) (v : Byte) :
    (s.withHost es).driveByte v = (s.driveByte v).withHost es := rfl
@[simp] theorem withHost_drivePixel (s : State) (es : List HostEvent) (r g b : Nibble) :
    (s.withHost es).drivePixel r g b = (s.drivePixel r g b).withHost es := rfl
@[simp] theorem withHost_withFb (s : State) (es : List HostEvent) (m : Memory) :
    (s.withHost es).withFb m = (s.withFb m).withHost es := rfl

end Sys2Proof.Machine.State
end

