-- ==== Sys2Proof/Laws/Exec.lean ====
section
/-! SUPPORT. What each shared operation and each meaning can do, said once. -/

namespace Sys2Proof.Machine

/-! ## One LED written -/

/-- Every nibble after a LED is written, by cases. -/
theorem nib_writeLed {L : Layout} (h : L.meetsSource = true) (m : Memory) (n : Nat) (r g b : Nibble) (q : Nat) :
    Memory.nib (Memory.writeLed L m n r g b) q =
      if q = nibbleNumber L n .red then some r
      else if q = nibbleNumber L n .green then some g
      else if q = nibbleNumber L n .blue then some b
      else Memory.nib m q := by
  have h1 : nibbleNumber L n .red ≠ nibbleNumber L n .green := fun e => by simpa using (nibbleNumber_inj h e).2
  have h2 : nibbleNumber L n .red ≠ nibbleNumber L n .blue := fun e => by simpa using (nibbleNumber_inj h e).2
  have h3 : nibbleNumber L n .green ≠ nibbleNumber L n .blue := fun e => by simpa using (nibbleNumber_inj h e).2
  unfold Memory.writeLed
  simp only [Memory.nib_setNib]
  split_ifs <;> simp_all

/-- A LED written reads back as written. -/
theorem readLed_writeLed_self {L : Layout} (h : L.meetsSource = true) (m : Memory) (n : Nat) (r g b : Nibble) :
    Memory.readLed L (Memory.writeLed L m n r g b) n = some (r, g, b) := by
  have h1 : nibbleNumber L n .green ≠ nibbleNumber L n .red := fun e => by simpa using (nibbleNumber_inj h e).2
  have h2 : nibbleNumber L n .blue ≠ nibbleNumber L n .red := fun e => by simpa using (nibbleNumber_inj h e).2
  have h3 : nibbleNumber L n .blue ≠ nibbleNumber L n .green := fun e => by simpa using (nibbleNumber_inj h e).2
  rw [Memory.readLed_eq_some]
  simp [nib_writeLed h, h1, h2, h3]

/-- A LED written leaves every other LED alone. -/
theorem readLed_writeLed_ne {L : Layout} (h : L.meetsSource = true) {n n' : Nat} (hn : n' ≠ n) (m : Memory)
    (r g b : Nibble) : Memory.readLed L (Memory.writeLed L m n r g b) n' = Memory.readLed L m n' := by
  have key : ∀ ch ch', nibbleNumber L n' ch ≠ nibbleNumber L n ch' := fun _ _ e => hn (nibbleNumber_inj h e).1
  simp [Memory.readLed, nib_writeLed h, key]

theorem wf_writeLed {L : Layout} (h : L.meetsSource = true) {n : Nat} (hn : n < 64) (r g b : Nibble) {m : Memory}
    (hm : Memory.wf m = true) : Memory.wf (Memory.writeLed L m n r g b) = true :=
  Memory.wf_setNib (nibbleNumber_lt h hn _) _
    (Memory.wf_setNib (nibbleNumber_lt h hn _) _ (Memory.wf_setNib (nibbleNumber_lt h hn _) _ hm))

/-- The same with the layout of R45, by nibble numbers. -/
theorem nib_writeLed_config (m : Memory) (n : Nat) (r g b : Nibble) (q : Nat) :
    Memory.nib (Memory.writeLed Config.layout m n r g b) q =
      if q = 3 * n then some r else if q = 3 * n + 1 then some g else if q = 3 * n + 2 then some b
      else Memory.nib m q := by
  rw [nib_writeLed config_layout_meetsSource]
  simp [nibbleNumber_config, channelPlace]

/-! ## The pixel write -/

theorem writePixel_none {w : Nat} {L : Layout} {ci cj ck : BitVec w} (hc : coordinate ci cj ck = none)
    (cr cg cb : Byte) (m : Memory) : writePixel L ci cj ck cr cg cb m = m := by
  simp [writePixel, hc]

theorem writePixel_some {w : Nat} {L : Layout} {ci cj ck : BitVec w} {p : LedCoord}
    (hc : coordinate ci cj ck = some p) (cr cg cb : Byte) (m : Memory) :
    writePixel L ci cj ck cr cg cb m =
      Memory.writeLed L m p.index (quantise cr) (quantise cg) (quantise cb) := by
  simp [writePixel, hc]

/-- The pixel write keeps the canonical form. -/
theorem wf_writePixel {w : Nat} {L : Layout} (h : L.meetsSource = true) (ci cj ck : BitVec w) (cr cg cb : Byte)
    {m : Memory} (hm : Memory.wf m = true) : Memory.wf (writePixel L ci cj ck cr cg cb m) = true := by
  cases hc : coordinate ci cj ck with
  | none => rwa [writePixel_none hc]
  | some p => rw [writePixel_some hc]; exact wf_writeLed h p.index_lt _ _ _ hm

/-! ## The meanings -/

theorem exec_nop (s : State) : exec .nop s = .next s.undriven := rfl

theorem exec_clear (s : State) : exec .clear s = .next (s.withFb Memory.zeroed) := rfl

theorem exec_wrpix (ci cj ck : Coord) (cr cg cb : Byte) (s : State) :
    exec (.wrpix ci cj ck cr cg cb) s = .next (s.withFb (writePixel Config.layout ci cj ck cr cg cb s.fb)) := rfl

/-- RDBYTE answers a next state exactly where the address is in range and the byte is whole. -/
theorem exec_rdbyte_next {ca : BitVec 7} {s t : State} :
    exec (.rdbyte ca) s = .next t ↔
      ca.toNat ≤ 95 ∧ ∃ v, Memory.readByte s.fb ca.toNat = some v ∧ t = s.driveByte v := by
  simp only [exec, execRdbyte, byteAddress]
  split_ifs with h
  · cases hb : Memory.readByte s.fb ca.toNat <;> simp [h, hb, eq_comm]
  · simp [h]

/-- RDPIX answers a next state exactly where the coordinate is in range and the LED is whole. -/
theorem exec_rdpix_next {ci cj ck : Coord} {s t : State} :
    exec (.rdpix ci cj ck) s = .next t ↔
      ∃ p r g b, coordinate ci cj ck = some p ∧
        Memory.readLed Config.layout s.fb p.index = some (r, g, b) ∧ t = s.drivePixel r g b := by
  simp only [exec, execRdpix, readPixel]
  cases hc : coordinate ci cj ck with
  | none => simp
  | some p =>
    rcases hb : Memory.readLed Config.layout s.fb p.index with _ | ⟨r, g, b⟩ <;> simp [hb, eq_comm]

/-- All that a command can do when it answers a next state. -/
theorem exec_next_cases {i : Instr} {s t : State} (h : exec i s = .next t) :
    (i = .nop ∧ t = s.undriven) ∨
    (i = .clear ∧ t = s.withFb Memory.zeroed) ∨
    (∃ ci cj ck cr cg cb, i = .wrpix ci cj ck cr cg cb ∧
      t = s.withFb (writePixel Config.layout ci cj ck cr cg cb s.fb)) ∨
    (∃ ca v, i = .rdbyte ca ∧ ca.toNat ≤ 95 ∧ Memory.readByte s.fb ca.toNat = some v ∧ t = s.driveByte v) ∨
    (∃ ci cj ck p r g b, i = .rdpix ci cj ck ∧ coordinate ci cj ck = some p ∧
      Memory.readLed Config.layout s.fb p.index = some (r, g, b) ∧ t = s.drivePixel r g b) := by
  cases i with
  | nop => exact .inl ⟨rfl, by simpa [exec_nop, eq_comm] using h⟩
  | clear => exact .inr (.inl ⟨rfl, by simpa [exec_clear, eq_comm] using h⟩)
  | wrpix ci cj ck cr cg cb =>
    exact .inr (.inr (.inl ⟨ci, cj, ck, cr, cg, cb, rfl, by simpa [exec_wrpix, eq_comm] using h⟩))
  | rdbyte ca =>
    obtain ⟨ha, v, hv, ht⟩ := exec_rdbyte_next.1 h
    exact .inr (.inr (.inr (.inl ⟨ca, v, rfl, ha, hv, ht⟩)))
  | rdpix ci cj ck =>
    obtain ⟨p, r, g, b, hc, hr, ht⟩ := exec_rdpix_next.1 h
    exact .inr (.inr (.inr (.inr ⟨ci, cj, ck, p, r, g, b, rfl, hc, hr, ht⟩)))
  | reserved101 => cases h
  | reserved110 => cases h
  | reserved111 => cases h

/-- A command changes nothing of what the host does next, and its outcome does not depend on it. -/
theorem exec_host_eq {i : Instr} {s t : State} (h : exec i s = .next t) : t.host = s.host := by
  obtain ⟨-, rfl⟩ | ⟨-, rfl⟩ | ⟨_, _, _, _, _, _, -, rfl⟩ | ⟨_, _, -, -, -, rfl⟩ | ⟨_, _, _, _, _, _, _, -, -, -, rfl⟩ :=
    exec_next_cases h <;> rfl

/-- A list of commands answers a next state exactly where its first does and the rest do from there. -/
theorem execAll_cons_next {i : Instr} {is : List Instr} {s t : State} :
    execAll (i :: is) s = .next t ↔ ∃ u, exec i s = .next u ∧ execAll is u = .next t := by
  simp only [execAll]
  cases exec i s <;> simp

/-- One step of a run of the machine. -/
theorem core_run_succ (n : Nat) (s : State) :
    core.run (n + 1) s =
      match step s with
      | .next t => core.run n t
      | .fault r => .fault r
      | .refused r => .refused r := by
  have hc : core.step s = step s := rfl
  cases h : step s <;> simp [Host.Core.run, hc, h]

/-- All that a handoff can do when it answers a next state. -/
theorem handoff_next {s t : State} : handoff s = .next t ↔ ∃ f, Memory.frame s.fb = some f ∧ t = s.handFrame f := by
  unfold handoff frameOutcome
  cases hf : Memory.frame s.fb <;> simp [eq_comm]

/-- All that a step can do when it answers a next state. -/
theorem step_next_cases {s t : State} (h : step s = .next t) :
    (s.host = [] ∧ t = s) ∨
    (∃ c es, s.host = .command c :: es ∧ exec (decode c) (s.withHost es) = .next t) ∨
    (∃ es f, s.host = .handoff :: es ∧ Memory.frame s.fb = some f ∧ t = (s.withHost es).handFrame f) := by
  unfold step hostStep at h
  split at h
  · next he => exact .inl ⟨he, by simpa [eq_comm] using h⟩
  · next e es he =>
    cases e with
    | command c => exact .inr (.inl ⟨c, es, he, h⟩)
    | handoff =>
      obtain ⟨f, hf, ht⟩ := handoff_next.1 h
      exact .inr (.inr ⟨es, f, he, hf, ht⟩)

end Sys2Proof.Machine
end

