-- ==== Sys2Proof/Laws/PerInstr.lean ====
section
/-! SUPPORT. A fact about every command as syntax, one lemma per constructor: its encoding carries its own row's
fields and no other (R71). -/

namespace Sys2Proof.Laws.EncodesOnlyItsFields

/-- Every field that the command's format does not read is 0 in its encoding. -/
def Statement (i : Instr) : Prop := (encode i).masked i.format = encode i

theorem nop : Statement .nop := rfl

theorem clear : Statement .clear := rfl

theorem wrpix (ci cj ck : Coord) (cr cg cb : Byte) : Statement (.wrpix ci cj ck cr cg cb) := rfl

theorem rdbyte (ca : BitVec 7) : Statement (.rdbyte ca) := rfl

theorem rdpix (ci cj ck : Coord) : Statement (.rdpix ci cj ck) := rfl

theorem reserved101 : Statement .reserved101 := rfl

theorem reserved110 : Statement .reserved110 := rfl

theorem reserved111 : Statement .reserved111 := rfl

end Sys2Proof.Laws.EncodesOnlyItsFields
end

