-- ==== Sys2Proof/Tests/Slice0.lean ====
section
/-! SUPPORT. Small tests whose expected results are the vectors of 95_test_vectors.md (its row is named in each
comment), the smoke test of WellFormed, and one witness for the hypotheses of each statement that has any. -/

namespace Sys2Proof.Tests

open Sys2Proof.Machine

/-! ## Helpers -/

/-- The state a list of commands leaves from `s`; `s` itself where they stop. -/
def left (is : List Instr) (s : State) : State :=
  match execAll is s with
  | .next t => t
  | .fault _ => s
  | .refused _ => s

/-- The reason of a stop, or none. -/
def stop : Result → Option (Fault ⊕ Refusal)
  | .next _ => none
  | .fault r => some (.inl r)
  | .refused r => some (.inr r)

/-- The bytes at some addresses. -/
def bytes (s : State) (as : List Nat) : List (Option Byte) := as.map (Memory.readByte s.fb)

/-- A state in which the three bytes at one group base are defined and nothing else is. -/
def group (base : Nat) (b0 b1 b2 : Byte) : State :=
  { State.reset with
    fb := Memory.writeByte (Memory.writeByte (Memory.writeByte [] base b0) (base + 1) b1) (base + 2) b2 }

/-- Start state W3 of section 2.2, as far as its first group goes. -/
def w3 : State := group 0 0xF8 0x1A 0xCE

/-- Start state W11 of section 2.2: one LED written after reset. -/
def w11 : State := left [.wrpix 0 3 0 0x20 0x30 0x40] State.reset

/-- A state whose whole frame is zero. -/
def cleared : State := State.reset.withFb Memory.zeroed

/-! ## WellFormed refuses an ill-formed command of each kind -/

theorem test_wellFormed_rdbyte : Instr.wellFormed (.rdbyte 95) = true ∧ Instr.wellFormed (.rdbyte 96) = false := by decide

theorem test_wellFormed_rdpix :
    Instr.wellFormed (.rdpix 3 0 3) = true ∧ Instr.wellFormed (.rdpix 4 0 0) = false ∧
    Instr.wellFormed (.rdpix 0 (-1) 0) = false ∧ Instr.wellFormed (.rdpix 0 0 0x100) = false := by decide

theorem test_wellFormed_reserved :
    Instr.wellFormed .reserved101 = false ∧ Instr.wellFormed .reserved110 = false ∧
    Instr.wellFormed .reserved111 = false := by decide

/-! ## Decoding: words written out from R73 and R70 -/

theorem test_decode_op_rows :
    decodeTableWord 8 0b000 = some .nop ∧ decodeTableWord 8 0b001 = some .clear ∧
    decodeTableWord 8 0b010 = some (.wrpix 0 0 0 0 0 0) ∧ decodeTableWord 8 0b011 = some (.rdbyte 0) ∧
    decodeTableWord 8 0b100 = some (.rdpix 0 0 0) ∧ decodeTableWord 8 0b101 = some .reserved101 ∧
    decodeTableWord 8 0b110 = some .reserved110 ∧ decodeTableWord 8 0b111 = some .reserved111 := by decide

/-- P2 line 6: `WRPIX 2, -1, 1, 0xFF, 0xFF, 0xFF`; `ca` is ignored. -/
theorem test_decode_wrpix :
    decode { op := 0b010#3, ci := 0x00000002, cj := 0xFFFFFFFF, ck := 0x00000001, cr := 0xFF, cg := 0xFF, cb := 0xFF,
             ca := 0x7F } = .wrpix 2 (-1) 1 0xFF 0xFF 0xFF := by decide

/-- P1 line 4: `RDBYTE 1`; the other fields are ignored. -/
theorem test_decode_rdbyte :
    decode { op := 0b011#3, ci := 5, cj := 6, ck := 7, cr := 1, cg := 2, cb := 3, ca := 0x01 } = .rdbyte 1 := by decide

/-- P1 line 5: `RDPIX 0, 3, 0`. -/
theorem test_decode_rdpix :
    decode { op := 0b100#3, ci := 0, cj := 0x00000003, ck := 0, cr := 1, cg := 2, cb := 3, ca := 4 } = .rdpix 0 3 0 := by
  decide

theorem test_decode_rejects_a_bit_above_the_port : decodeTableWord 136 (2 ^ 130) = none := by decide

/-! ## The commands -/

/-- K4. -/
theorem test_nop_keeps_the_frame : (left [.nop] w3).fb = w3.fb ∧ (left [.rdbyte 0, .nop] w3).rspByte = none := by decide

/-- K1: no undefined nibble is left, and every byte is 00. -/
theorem test_clear_after_reset : bytes (left [.clear] State.reset) [0, 50, 95] = [some 0, some 0, some 0] := by
  decide +kernel

/-- W4 and W5, the two writes that each keep the other LED's nibble of the shared byte. -/
theorem test_wrpix_keeps_the_partner :
    bytes (left [.wrpix 0 3 0 0x20 0x30 0x40] w3) [0, 1, 2] = [some 0x23, some 0x4A, some 0xCE] ∧
    bytes (left [.wrpix 0 3 0 0x20 0x30 0x40, .wrpix 0 2 0 0x50 0x60 0x70] w3) [0, 1, 2] =
      [some 0x23, some 0x45, some 0x67] := by decide

/-- W11, and X5 from W11: an undefined partner stays undefined, and a negative row is no alias. -/
theorem test_wrpix_undefined_partner_and_negative_row :
    [0, 1, 2, 3, 4, 5].map (Memory.nib w11.fb) = [some 2, some 3, some 4, none, none, none] ∧
    (left [.wrpix 0 (-1) 0 0xFF 0xFF 0xFF] w11).fb = w11.fb := by decide

/-- B2, B4 with W6. -/
theorem test_rdbyte_values :
    (left [.rdbyte 1] w3).rspByte = some 0x1A ∧
    (left [.rdbyte 95] (left [.wrpix 3 0 3 0x12 0x34 0x56] (group 93 0 0 0))).rspByte = some 0x35 := by decide

/-- B5, B6, B8 and B9. -/
theorem test_rdbyte_stops :
    stop (exec (.rdbyte 96) State.reset) = some (.inr (.byteAddressOutOfRange 96)) ∧
    stop (exec (.rdbyte 127) w3) = some (.inr (.byteAddressOutOfRange 127)) ∧
    stop (exec (.rdbyte 1) w11) = some (.inl (.uninitialisedRead (.byteAddress 1))) ∧
    stop (exec (.rdbyte 50) State.reset) = some (.inl (.uninitialisedRead (.byteAddress 50))) := by decide

/-- P1v, P2v and P4v. -/
theorem test_rdpix_values :
    hostReadPixel (left [.rdpix 0 3 0] w3) = .next (0xF, 0x8, 0x1) ∧
    hostReadPixel (left [.rdpix 0 2 0] w3) = .next (0xA, 0xC, 0xE) ∧
    hostReadPixel (left [.rdpix 0 3 0] w11) = .next (0x2, 0x3, 0x4) := ⟨rfl, rfl, rfl⟩

/-- P5v, P6v and P7v. -/
theorem test_rdpix_stops :
    stop (exec (.rdpix 0 2 0) w11) = some (.inl (.uninitialisedRead (.ledIndex 1))) ∧
    stop (exec (.rdpix 0 4 0) w3) = some (.inr .coordinateOutOfRange) ∧
    stop (exec (.rdpix (-1) 0 0) w3) = some (.inr .coordinateOutOfRange) := by decide

/-- Section 2.6. -/
theorem test_reserved_refused :
    stop (exec .reserved101 w3) = some (.inr (.reservedOpcode 0b101)) ∧
    stop (exec .reserved110 w3) = some (.inr (.reservedOpcode 0b110)) ∧
    stop (exec .reserved111 w3) = some (.inr (.reservedOpcode 0b111)) := by decide

/-- Section 2.1, rows (1,1,2), (3,2,1) and (0,0,3). -/
theorem test_addresser_rows :
    (LedCoord.mk 1 1 2).index = 38 ∧ (LedCoord.mk 1 1 2).groupBase = 57 ∧ (LedCoord.mk 1 1 2).odd = false ∧
    (LedCoord.mk 3 2 1).index = 29 ∧ (LedCoord.mk 3 2 1).groupBase = 42 ∧ (LedCoord.mk 3 2 1).odd = true ∧
    (LedCoord.mk 0 0 3).index = 51 ∧ (LedCoord.mk 0 0 3).groupBase = 75 ∧ (LedCoord.mk 0 0 3).odd = true := by decide

/-- The last line of section 2.2: `COORD_W = 8`. -/
theorem test_inRange_at_eight_bits :
    inRange 0xFC#8 = false ∧ inRange 0x03#8 = true ∧ inRange 0x83#8 = false := by decide

/-- A word placed as the next command is decoded and run as the first step after reset. -/
theorem test_withFetchWord_runs :
    stop (step (State.reset.withFetchWord 8 5)) = some (.inr (.reservedOpcode 0b101)) ∧
    stop (step (State.reset.withFetchWord 8 2)) = none := by decide

/-- R81 and R82 on text: `RDPIX 2, -1, 0x10 ; note`, and `BLANK 0,3,0`. -/
theorem test_assembler_text :
    parseLine ['R', 'D', 'P', 'I', 'X', ' ', '2', ',', ' ', '-', '1', ',', ' ', '0', 'x', '1', '0', ' ', ';', ' ', 'n'] =
      .ok (some (.rdpix 2 (-1) 16)) ∧
    parseLine ['B', 'L', 'A', 'N', 'K', ' ', '0', ',', '3', ',', '0'] = .ok (some (.blank 0 3 0)) := ⟨rfl, rfl⟩

/-- R81: a colour of 256 is rejected, and so is a byte address of 128; P1's results as they are written. -/
theorem test_assembler_rejects_and_renders :
    asmColour 256 = .error (.colourOutOfRange 256) ∧ asmAddress 128 = .error (.byteAddressOutOfRange 128) ∧
    renderResult (.byte 0x1A) = [';', ' ', '-', '>', ' ', '0', 'x', '1', 'A'] := ⟨rfl, rfl, rfl⟩

/-! ## Witnesses: each statement's hypotheses met together -/

theorem witness_ReadsRightAfterResetFault :
    (95 : BitVec 7).toNat ≤ 95 ∧ coordinate (3 : Coord) 0 3 = some ⟨3, 0, 3⟩ := by decide

theorem witness_EveryStepKeepsTheInvariant :
    State.Inv (State.reset.withFetchWord 8 2) ∧
    step (State.reset.withFetchWord 8 2) = .next (left [.wrpix 0 0 0 0 0 0] State.reset) :=
  ⟨⟨rfl, ⟨rfl, rfl⟩, by decide, fun _ h => nomatch h⟩, rfl⟩

theorem witness_DefinedNibblesStayDefined :
    0 < 192 ∧ step (w3.withFetchWord 8 0) = .next w3 ∧ (Memory.nib w3.fb 0).isSome = true := ⟨by decide, rfl, rfl⟩

theorem witness_NopChangesNothing : ∃ t, exec .nop w3 = .next t ∧
    (Command.mk 0b000#3 1 2 3 4 5 6 7).op = 0b000#3 := ⟨_, rfl, rfl⟩

theorem witness_ClearZeroesTheFrame : Memory.wf w3.fb = true := by decide

theorem witness_ClearForgetsThePast :
    (∃ t, execAll [.wrpix 0 3 0 1 2 3, .nop] State.reset = .next t) ∧
    (∃ t, exec .clear w3 = .next t) ∧ ∃ t, exec .clear State.reset = .next t :=
  ⟨⟨_, rfl⟩, ⟨_, rfl⟩, ⟨_, rfl⟩⟩

theorem witness_WrpixWritesExactlyItsLed :
    coordinate (0 : Coord) 3 0 = some ⟨0, 3, 0⟩ ∧ coordinate (3 : Coord) 0 3 = some ⟨3, 0, 3⟩ := by decide

theorem witness_WrpixNibbleAndByteFormsAgree :
    Memory.wf w11.fb = true ∧ coordinate (4 : Coord) 0 0 = none ∧ coordinate (0 : Coord) 2 0 = some ⟨0, 2, 0⟩ := by decide

theorem witness_OutOfRange_each_component :
    OutOfRange (4 : Coord) ∧ OutOfRange (-1 : Coord) ∧ OutOfRange (0x80000000 : Coord) := by
  unfold OutOfRange; decide

theorem witness_WrpixNeverStops : (Command.mk 0b010#3 4 4 4 0 0 0 0).op = 0b010#3 := rfl

theorem witness_LowColourBitsHaveNoEffect :
    coordinate (0 : Coord) 3 0 = some ⟨0, 3, 0⟩ ∧ (∃ t, exec (.wrpix 0 3 0 0xF0 0x8F 0x1A) w3 = .next t) ∧
    (0xF0 : Byte).toNat / 16 = (0xFF : Byte).toNat / 16 := ⟨by decide, ⟨_, rfl⟩, rfl⟩

theorem witness_CoordinateInRangeExactly :
    coordinate (3 : BitVec 3) 0 3 = some ⟨3, 0, 3⟩ ∧ coordinate (4 : BitVec 3) 0 0 = none := by decide

theorem witness_CoordinateWidthDoesNotMatter :
    ∀ z ∈ [(-4 : Int), 3, 0], (BitVec.ofInt 3 z).toInt = z ∧ (BitVec.ofInt 32 z).toInt = z := by decide

theorem witness_RowFlipIsThreeMinusTheRow : coordinate (0 : Coord) 4 0 = none := by decide

theorem witness_NibblesAndLedsAreInBijection :
    nibbleNumber Config.layout 63 .blue = 191 ∧ nibbleNumber Config.layout 0 .red = 0 ∧ (ledAt 63).index = 63 := by decide

theorem witness_LayoutOfTheGroupBytes :
    Memory.readByte w3.fb (LedCoord.mk 0 3 0).groupBase = some 0xF8 ∧
    Memory.readByte w3.fb ((LedCoord.mk 0 3 0).groupBase + 1) = some 0x1A ∧
    Memory.readByte w3.fb ((LedCoord.mk 0 3 0).groupBase + 2) = some 0xCE := by decide

/-- Between the write and the read stand writes to the LED's own partner and to no LED at all, and reads. -/
theorem witness_WriteThenReadGivesTheHighBits :
    coordinate (0 : Coord) 3 0 = some ⟨0, 3, 0⟩ ∧
    (∀ i ∈ [Instr.wrpix 0 2 0 9 9 9, .wrpix 0 4 0 9 9 9, .rdpix 0 3 0], i ≠ .clear ∧
      ∀ di dj dk dr dg db, i = .wrpix di dj dk dr dg db → coordinate di dj dk ≠ some ⟨0, 3, 0⟩) ∧
    ∃ t, execAll [.wrpix 0 3 0 1 2 3, .wrpix 0 2 0 9 9 9, .wrpix 0 4 0 9 9 9, .rdpix 0 3 0] State.reset = .next t := by
  refine ⟨by decide, fun i hi => ?_, ⟨_, rfl⟩⟩
  simp only [List.mem_cons, List.not_mem_nil, or_false] at hi
  rcases hi with rfl | rfl | rfl
  · refine ⟨by decide, ?_⟩
    rintro _ _ _ _ _ _ ⟨⟩
    decide
  · refine ⟨by decide, ?_⟩
    rintro _ _ _ _ _ _ ⟨⟩
    decide
  · exact ⟨by decide, fun _ _ _ _ _ _ h => nomatch h⟩

/-- A layout other than that of R45 that the source allows, with the parities and the channel order turned round. -/
theorem witness_EveryLayoutKeepsTheSourcesPromise :
    Layout.meetsSource { evenRed := 5, evenGreen := 3, evenBlue := 4, oddRed := 1, oddGreen := 0, oddBlue := 2 } = true ∧
    coordinate (0 : BitVec 8) 3 0 = some ⟨0, 3, 0⟩ := by decide

theorem witness_WrpixTouchesTwoNeighbouringBytes :
    Config.layout.meetsSource = true ∧ (LedCoord.mk 3 0 3).odd = true ∧
    187 / 2 ≠ (LedCoord.mk 3 0 3).groupBase + 1 ∧ 187 / 2 ≠ (LedCoord.mk 3 0 3).groupBase + 2 := by decide

theorem witness_LaterWritesWinAndOthersCommute :
    Memory.wf State.reset.fb = true ∧ coordinate (0 : Coord) 3 0 = some ⟨0, 3, 0⟩ ∧
    coordinate (0 : Coord) 2 0 = some ⟨0, 2, 0⟩ ∧ LedCoord.mk 0 3 0 ≠ LedCoord.mk 0 2 0 ∧
    (∃ t, execAll [.wrpix 0 3 0 1 2 3, .nop, .wrpix 0 3 0 4 5 6] State.reset = .next t) ∧
    ∃ t, exec (.wrpix 0 2 0 1 2 3) State.reset = .next t :=
  ⟨by decide, by decide, by decide, by decide, ⟨_, rfl⟩, ⟨_, rfl⟩⟩

theorem witness_RepeatingAWriteChangesNothing :
    Instr.isRead (.rdbyte 0) = true ∧ (∃ t, exec (.rdbyte 0) w3 = .next t) ∧ Memory.wf w3.fb = true ∧
    (∃ t, exec (.wrpix 0 3 0 1 2 3) w3 = .next t) ∧ ∃ t, exec .clear w3 = .next t :=
  ⟨rfl, ⟨_, rfl⟩, by decide, ⟨_, rfl⟩, ⟨_, rfl⟩⟩

theorem witness_RdbyteDrivesTheByte :
    (95 : BitVec 7).toNat ≤ 95 ∧ Memory.nib (group 93 1 2 0x34).fb 190 = some 3 ∧
    Memory.nib (group 93 1 2 0x34).fb 191 = some 4 ∧ Memory.nib w11.fb 3 = none := by decide

theorem witness_RdbyteRefusesAbove95 : 95 < (96 : BitVec 7).toNat := by decide

theorem witness_RdpixDrivesTheLed :
    coordinate (0 : Coord) 3 0 = some ⟨0, 3, 0⟩ ∧ (LedCoord.mk 0 3 0).odd = false ∧
    coordinate (0 : Coord) 2 0 = some ⟨0, 2, 0⟩ ∧ (LedCoord.mk 0 2 0).odd = true ∧
    [0, 1, 2].map (Memory.nib w11.fb) = [some 2, some 3, some 4] ∧ Memory.nib w11.fb 3 = none ∧
    bytes w3 [0, 1, 2] = [some 0xF8, some 0x1A, some 0xCE] := by decide

theorem witness_ReservedOpcodesAreRefused :
    (Command.mk 0b101#3 0 0 0 0 0 0 0).op = 0b101#3 ∧ (Command.mk 0b111#3 9 9 9 9 9 9 9).op = 0b111#3 := by decide

theorem witness_OnlyClearAndWrpixWriteTheFrame :
    exec (.wrpix 0 3 0 0x20 0x30 0x40) State.reset = .next w11 ∧ w11.fb ≠ State.reset.fb := ⟨rfl, by decide⟩

theorem witness_ResponsesAreDrivenByTheirOwnCommand :
    (∃ t, exec (.rdbyte 0) w3 = .next t ∧ t.rspByte.isSome = true) ∧
    (∃ t, exec (.rdpix 0 3 0) w3 = .next t ∧ t.rspR.isSome = true) ∧ ∃ t, exec .nop w3 = .next t :=
  ⟨⟨_, rfl, rfl⟩, ⟨_, rfl, rfl⟩, ⟨_, rfl⟩⟩

theorem witness_OnlyTheFrameCarriesOver :
    Command.masked ⟨0b011#3, 1, 2, 3, 4, 5, 6, 7⟩ .A = Command.masked ⟨0b011#3, 0, 0, 0, 0, 0, 0, 7⟩ .A ∧
    w3.fb = (w3.withFetchWord 8 0).fb ∧ (∃ t, exec (.rdbyte 0) w3 = .next t) ∧
    stop (exec (.rdbyte 9) w3) = some (.inl (.uninitialisedRead (.byteAddress 9))) ∧
    stop (exec (.rdbyte 96) w3) = some (.inr (.byteAddressOutOfRange 96)) :=
  ⟨by decide, rfl, ⟨_, rfl⟩, by decide, by decide⟩

theorem witness_StepRunsTheDecodedCommand :
    (w3.issue (encode .nop)).host = .command (encode .nop) :: [] ∧ (w3.withHost [.handoff]).host = .handoff :: [] ∧
    w3.host = [] ∧ decodeTableWord 8 3 = some (.rdbyte 0) := by decide

theorem witness_PortBitsCarryEveryField : 2 ^ 130 - 1 < 2 ^ portBits ∧ 2 ^ portBits ≤ 2 ^ 130 := by decide

/-- A whole frame, and a frame whose only undefined nibble is its last. -/
theorem witness_HandoffGivesTheFrame :
    Memory.AllDefined cleared.fb ∧ Memory.readByte (Memory.setNib cleared.fb 191 none) 95 = none ∧
    ∀ b, b < 95 → (Memory.readByte (Memory.setNib cleared.fb 191 none) b).isSome = true := by
  refine ⟨fun q hq => ?_, by decide +kernel, fun b hb => ?_⟩
  · show (Memory.nib Memory.zeroed q).isSome = true
    rw [Memory.nib_zeroed, if_pos hq]
    rfl
  · have h : ∀ b : Fin 95, (Memory.readByte (Memory.setNib cleared.fb 191 none) b).isSome = true := by decide +kernel
    exact h ⟨b, hb⟩

theorem witness_AStopEndsTheRun :
    step (State.reset.withFetchWord 8 3) = .fault (.uninitialisedRead (.byteAddress 0)) ∧
    step (State.reset.withFetchWord 8 6) = .refused (.reservedOpcode 0b110#3) ∧
    execAll [.nop, .rdbyte 0] State.reset = .fault (.uninitialisedRead (.byteAddress 0)) ∧
    execAll [.nop, .reserved111] State.reset = .refused (.reservedOpcode 0b111#3) := ⟨rfl, rfl, rfl, rfl⟩

theorem witness_ReadsSeeTheLatestWrite :
    (∃ t, execAll [.wrpix 0 3 0 0x20 0x30 0x40, .wrpix 0 3 0 0x50 0x60 0x70] State.reset = .next t) ∧
    nibbleHistory 0 [.wrpix 0 3 0 0x20 0x30 0x40, .wrpix 0 3 0 0x50 0x60 0x70] none = some 5 ∧
    nibbleHistory 1 [.wrpix 0 3 0 0x20 0x30 0x40, .wrpix 0 3 0 0x50 0x60 0x70] none = some 6 ∧
    nibbleHistory 2 [.wrpix 0 3 0 0x20 0x30 0x40, .wrpix 0 3 0 0x50 0x60 0x70] none = some 7 ∧
    coordinate (0 : Coord) 3 0 = some ⟨0, 3, 0⟩ ∧ (0 : BitVec 7).toNat ≤ 95 ∧
    nibbleHistory 3 [.wrpix 0 3 0 0x20 0x30 0x40, .wrpix 0 3 0 0x50 0x60 0x70] none = none ∧
    coordinate (0 : Coord) 2 0 = some ⟨0, 2, 0⟩ := ⟨⟨_, rfl⟩, by decide⟩

/-- FILL's 64 commands are pixel writes and reach every coordinate. -/
theorem witness_WholeFrameRoundTrip :
    let is : List Instr := fillOrder.map fun p =>
      .wrpix (BitVec.ofNat 32 p.1) (BitVec.ofNat 32 p.2.1) (BitVec.ofNat 32 p.2.2) 0x12 0x34 0x56
    is.all Instr.isPixelWrite = true ∧ ∀ p : LedCoord, (colourHistory p is none).isSome = true := by
  refine ⟨by decide +kernel, ?_⟩
  rintro ⟨i, j, k⟩
  revert i j k
  decide +kernel

theorem witness_LifecycleFrameIsThePackedColours :
    [Instr.wrpix 0 3 0 1 2 3, .wrpix 4 0 0 1 2 3].all Instr.isPixelWrite = true := by decide

theorem witness_LegalRunsAfterClearComplete :
    legalRun [.nop, .wrpix 9 9 9 1 2 3, .rdbyte 95, .rdpix 3 3 3, .clear] = true := by decide

theorem witness_RdframeReadsTheFrame : Memory.AllDefined cleared.fb := witness_HandoffGivesTheFrame.1

end Sys2Proof.Tests
end

section
/-! PROOF. R10: the test of a component's upper bits is the range of its integer. -/

namespace Sys2Proof.Machine

/-- The test of the upper bits bounds the unsigned value, at every width, those below 2 included. -/
theorem inRange_iff_toNat_lt {w : Nat} (c : BitVec w) : inRange c = true ↔ c.toNat < 4 := by
  have hlow : c.toNat / 4 < 2 ^ (w - 2) := by
    have hw : 2 ^ w ≤ 2 ^ (w - 2) * 4 := by
      rw [show 4 = 2 ^ 2 from rfl, ← Nat.pow_add]
      exact Nat.pow_le_pow_right (by decide) (by omega)
    exact Nat.div_lt_of_lt_mul (by have := c.isLt; omega)
  have hbits : (c.extractLsb' 2 (w - 2)).toNat = c.toNat / 4 := by
    rw [BitVec.extractLsb'_toNat, Nat.shiftRight_eq_div_pow, Nat.mod_eq_of_lt hlow]
  calc inRange c = true
    _ ↔ (c.extractLsb' 2 (w - 2)).toNat = 0 := by simp [inRange, BitVec.toNat_eq]
    _ ↔ c.toNat < 4 := by rw [hbits]; omega

/-- A value of two bits is the same read as signed or unsigned, because from width 3 on the sign bit stands above those
two bits. -/
theorem toInt_eq_iff_toNat_eq {w : Nat} (hw : 3 ≤ w) (c : BitVec w) {n : Nat} (hn : n < 4) :
    c.toInt = n ↔ c.toNat = n := by
  have h8 : 2 ^ 3 ≤ 2 ^ w := Nat.pow_le_pow_right (by decide) hw
  have := c.isLt
  rw [BitVec.toInt_eq_toNat_cond]
  split <;> omega

/-- R10: a component passes the test exactly when its two's-complement integer lies in 0..3. -/
theorem inRange_iff_toInt {w : Nat} (hw : 3 ≤ w) (c : BitVec w) :
    inRange c = true ↔ 0 ≤ c.toInt ∧ c.toInt ≤ 3 := by
  rw [inRange_iff_toNat_lt]
  constructor
  · intro h
    have := (toInt_eq_iff_toNat_eq hw c h).mpr rfl
    omega
  · rintro ⟨h0, h3⟩
    have := (toInt_eq_iff_toNat_eq hw c (n := c.toInt.toNat) (by omega)).mp (by omega)
    omega

/-- An in-range component with low bits `b` is a component whose integer is `b`'s. -/
theorem inRange_and_lowBits_iff {w : Nat} (hw : 3 ≤ w) (c : BitVec w) (b : BitVec 2) :
    inRange c = true ∧ c.extractLsb' 0 2 = b ↔ c.toInt = b.toNat := by
  have hb : b.toNat < 4 := b.isLt
  have hlow : (c.extractLsb' 0 2).toNat = c.toNat % 4 := by simp
  rw [inRange_iff_toNat_lt, toInt_eq_iff_toNat_eq hw c hb, BitVec.toNat_eq, hlow]
  omega

/-- When three components form the coordinate `p`: each passes the test and its low bits are `p`'s component. -/
theorem coordinate_eq_some_iff {w : Nat} (ci cj ck : BitVec w) (p : LedCoord) :
    coordinate ci cj ck = some p ↔
      (inRange ci = true ∧ ci.extractLsb' 0 2 = p.i) ∧ (inRange cj = true ∧ cj.extractLsb' 0 2 = p.j) ∧
        (inRange ck = true ∧ ck.extractLsb' 0 2 = p.k) := by
  obtain ⟨i, j, k⟩ := p
  unfold coordinate
  split
  case isTrue h =>
    simp only [Bool.and_eq_true] at h
    simp [h]
  case isFalse h =>
    simp only [Bool.and_eq_true] at h
    simp only [reduceCtorEq, false_iff]
    exact fun ⟨⟨hi, _⟩, ⟨hj, _⟩, hk, _⟩ => h ⟨⟨hi, hj⟩, hk⟩

/-- Settles O14: the bound on the unsigned value carries over to the two's-complement integer, component by
component. -/
theorem coordinateInRangeExactly : Obligations.CoordinateInRangeExactly := by
  intro w hw
  refine ⟨inRange_iff_toInt hw, fun ci cj ck p => ?_⟩
  rw [coordinate_eq_some_iff]
  simp only [inRange_and_lowBits_iff hw]

end Sys2Proof.Machine
end

section
/-! PROOF. R41 to R46: the row flip, the LED index and the group base as numbers, and the LED layout both ways. -/

namespace Sys2Proof.Machine

/-! ## The row flip -/

/-- `3 - j` on two bits turns every bit round. -/
theorem LedCoord.flippedRow_eq_not (p : LedCoord) : p.flippedRow = ~~~p.j := BitVec.allOnes_sub_eq_not p.j

/-- The two-bit subtraction never borrows. -/
theorem LedCoord.flippedRow_toNat (p : LedCoord) : p.flippedRow.toNat = 3 - p.j.toNat := by
  rw [flippedRow_eq_not, BitVec.toNat_not]

/-- Out of range there is no LED to read (R135). -/
theorem readPixel_none {w : Nat} {L : Layout} {ci cj ck : BitVec w} (hc : coordinate ci cj ck = none) (s : State) :
    readPixel L ci cj ck s = .refused .coordinateOutOfRange := by
  simp [readPixel, hc]

/-- Settles O16: the flip is the complement, whose value is `3 - j`. -/
theorem rowFlipIsThreeMinusTheRow : Obligations.RowFlipIsThreeMinusTheRow := by
  refine ⟨fun p => ⟨p.flippedRow_toNat, ?_, p.flippedRow_eq_not⟩, fun ci cj ck cr cg cb m s hc => ?_⟩
  · rw [p.flippedRow_toNat]
    exact Nat.sub_le 3 _
  · exact ⟨writePixel_none hc cr cg cb m, readPixel_none hc s⟩

/-! ## The LED index and the group base -/

/-- R42: the index is the bits `k : i : j'`, side by side. -/
theorem LedCoord.index_eq_append (p : LedCoord) : p.index = (p.k ++ p.i ++ p.flippedRow).toNat := by
  have hi := p.i.isLt
  have hr := p.flippedRow.isLt
  rw [BitVec.toNat_append, BitVec.toNat_append, ← Nat.shiftLeft_add_eq_or_of_lt hi,
    ← Nat.shiftLeft_add_eq_or_of_lt hr]
  simp only [LedCoord.index, Nat.shiftLeft_eq]
  omega

/-- R43: every pair of LEDs owns three bytes. -/
theorem LedCoord.groupBase_eq (p : LedCoord) : p.groupBase = 3 * (p.index / 2) := by
  simp only [LedCoord.groupBase, LedCoord.index, BitVec.toNat_ushiftRight, Nat.shiftRight_eq_div_pow]
  omega

/-- The odd LED of a pair is the one with the odd index (R102). -/
theorem LedCoord.odd_iff (p : LedCoord) : p.odd = true ↔ p.index % 2 = 1 := by
  have hodd : p.odd = decide (p.flippedRow.toNat % 2 = 1) := Nat.testBit_zero _
  rw [hodd, decide_eq_true_iff, LedCoord.index]
  omega

/-- Two coordinates share a pair exactly when they agree in all but the low bit of the flipped row. -/
theorem LedCoord.index_half_eq_iff (p p' : LedCoord) :
    p.index / 2 = p'.index / 2 ↔
      p.i = p'.i ∧ p.k = p'.k ∧ p.flippedRow.toNat / 2 = p'.flippedRow.toNat / 2 := by
  have hi := p.i.isLt
  have hi' := p'.i.isLt
  have hr := p.flippedRow.isLt
  have hr' := p'.flippedRow.isLt
  simp only [LedCoord.index, BitVec.toNat_eq]
  omega

theorem channelPlace_le (ch : Channel) : channelPlace ch ≤ 2 := by
  cases ch <;> decide

/-- A LED's nibbles stand in the three bytes of its group (R43). -/
theorem nibbleNumber_half_mem_group (p : LedCoord) (ch : Channel) :
    p.groupBase ≤ nibbleNumber Config.layout p.index ch / 2 ∧
      nibbleNumber Config.layout p.index ch / 2 ≤ p.groupBase + 2 := by
  have := channelPlace_le ch
  rw [nibbleNumber_config, p.groupBase_eq]
  omega

/-- Settles O17: every clause is the index or the base read as a number in `k`, `i` and the flipped row. -/
theorem ledIndexAndGroupBase : Obligations.LedIndexAndGroupBase := by
  intro p
  have hlt := p.index_lt
  have hbase := p.groupBase_eq
  refine ⟨?_, hlt, p.index_eq_append, ?_, by omega, hbase, by omega, p.odd_iff, nibbleNumber_half_mem_group p,
    fun p' => ?_⟩
  · rw [← p.flippedRow_toNat, LedCoord.index]
  · rw [← p.flippedRow_toNat, LedCoord.groupBase, BitVec.toNat_ushiftRight, Nat.shiftRight_eq_div_pow, pow_one]
  · rw [← p.flippedRow_toNat, ← p'.flippedRow_toNat, p.index_half_eq_iff]

/-! ## Nibbles, LEDs and coordinates -/

/-- The places 0, 1 and 2 of a LED word are all taken by a channel. -/
theorem exists_channelPlace_eq {c : Nat} (hc : c < 3) : ∃ ch, channelPlace ch = c := by
  interval_cases c
  exacts [⟨.red, rfl⟩, ⟨.green, rfl⟩, ⟨.blue, rfl⟩]

/-- `ledAt` is a right inverse of R42's index. -/
theorem index_ledAt {n : Nat} (hn : n < 64) : (ledAt n).index = n := by
  have hrow : (ledAt n).flippedRow = BitVec.ofNat 2 n := sub_sub_cancel (3#2) (BitVec.ofNat 2 n)
  rw [LedCoord.index, hrow]
  simp only [ledAt, BitVec.toNat_ofNat]
  omega

/-- Settles O18: nibble `q` is channel `q % 3` of LED `q / 3`, and `nibbleNumber_inj` and `index_inj` leave no other. -/
theorem nibblesAndLedsAreInBijection : Obligations.NibblesAndLedsAreInBijection := by
  refine ⟨fun n ch hn => nibbleNumber_lt config_layout_meetsSource hn ch, fun q hq => ?_, fun n hn => ?_⟩
  · obtain ⟨ch, hch⟩ := exists_channelPlace_eq (Nat.mod_lt q (by decide : 3 > 0))
    have hnum : nibbleNumber Config.layout (q / 3) ch = q := by
      rw [nibbleNumber_config, hch, Nat.div_add_mod]
    exact ⟨q / 3, ch, by omega, hnum,
      fun n' ch' _ h => nibbleNumber_inj config_layout_meetsSource (h.trans hnum.symm)⟩
  · exact ⟨index_ledAt hn, fun p hp => LedCoord.index_inj (hp.trans (index_ledAt hn).symm)⟩

/-! ## The bytes of a group -/

/-- A whole byte is its two nibbles, the high one first (R22). -/
theorem Memory.nib_of_readByte {m : Memory} {a : Nat} {v : Byte} (h : Memory.readByte m a = some v) :
    Memory.nib m (2 * a) = some (hiNibble v) ∧ Memory.nib m (2 * a + 1) = some (loNibble v) := by
  obtain ⟨hi, lo, hhi, hlo, rfl⟩ := Memory.readByte_eq_some.1 h
  simp [hhi, hlo]

/-- With the layout of R45 the colour of LED `n` is the nibbles `3n`, `3n + 1` and `3n + 2`. -/
theorem readLed_config_eq_some {m : Memory} {n : Nat} {r g b : Nibble} :
    Memory.readLed Config.layout m n = some (r, g, b) ↔
      Memory.nib m (3 * n) = some r ∧ Memory.nib m (3 * n + 1) = some g ∧ Memory.nib m (3 * n + 2) = some b := by
  simp [Memory.readLed_eq_some, nibbleNumber_config, channelPlace]

/-- Settles O19: the six nibbles of a group's three bytes are the even LED's `3n`, `3n + 1`, `3n + 2` and then the odd
LED's. -/
theorem layoutOfTheGroupBytes : Obligations.LayoutOfTheGroupBytes := by
  refine ⟨fun n => ⟨nibbleNumber_config n .red, nibbleNumber_config n .green, nibbleNumber_config n .blue⟩,
    fun m p b0 b1 b2 h0 h1 h2 => ?_⟩
  obtain ⟨n0, n1⟩ := Memory.nib_of_readByte h0
  obtain ⟨n2, n3⟩ := Memory.nib_of_readByte h1
  obtain ⟨n4, n5⟩ := Memory.nib_of_readByte h2
  have hbase := p.groupBase_eq
  split
  case isTrue hodd =>
    have hpar := p.odd_iff.1 hodd
    rw [show 2 * (p.groupBase + 1) + 1 = 3 * p.index by omega] at n3
    rw [show 2 * (p.groupBase + 2) = 3 * p.index + 1 by omega] at n4
    rw [show 2 * (p.groupBase + 2) + 1 = 3 * p.index + 2 by omega] at n5
    exact readLed_config_eq_some.2 ⟨n3, n4, n5⟩
  case isFalse heven =>
    have hpar := mt p.odd_iff.2 heven
    rw [show 2 * p.groupBase = 3 * p.index by omega] at n0 n1
    rw [show 2 * (p.groupBase + 1) = 3 * p.index + 2 by omega] at n2
    exact readLed_config_eq_some.2 ⟨n0, n1, n2⟩

end Sys2Proof.Machine
end

section
/-! PROOF. R56: after any commands a nibble holds what its history says, and the reads return it. -/

namespace Sys2Proof.Machine

/-! ## What a run leaves in a nibble -/

/-- One command leaves in each nibble what `nibbleAfter` says of it. -/
theorem nib_exec {i : Instr} {s t : State} (h : exec i s = .next t) {q : Nat} (hq : q < 192) :
    Memory.nib t.fb q = nibbleAfter q (Memory.nib s.fb q) i := by
  obtain ⟨rfl, rfl⟩ | ⟨rfl, rfl⟩ | ⟨ci, cj, ck, cr, cg, cb, rfl, rfl⟩ | ⟨ca, v, rfl, -, -, rfl⟩ |
    ⟨ci, cj, ck, p, r, g, b, rfl, -, -, rfl⟩ := exec_next_cases h
  case inr.inl =>
    simp [Memory.nib_zeroed, hq, nibbleAfter]
  case inr.inr.inl =>
    cases hc : coordinate ci cj ck with
    | none => simp [writePixel_none hc, nibbleAfter, hc]
    | some p => simp [writePixel_some hc, nib_writeLed_config, nibbleAfter, hc]
  all_goals rfl

/-- A list of commands leaves in each nibble what its history says. -/
theorem nib_execAll {is : List Instr} {s t : State} (h : execAll is s = .next t) {q : Nat} (hq : q < 192) :
    Memory.nib t.fb q = nibbleHistory q is (Memory.nib s.fb q) := by
  induction is generalizing s with
  | nil =>
    cases h
    rfl
  | cons i is ih =>
    obtain ⟨u, hu, ht⟩ := execAll_cons_next.1 h
    rw [ih ht, nib_exec hu hq, nibbleHistory]

/-! ## What a read answers, by nibbles -/

/-- The read of a LED answers nothing exactly where one of its nibbles is undefined (R136). -/
theorem readLed_config_eq_none {m : Memory} {n : Nat} :
    Memory.readLed Config.layout m n = none ↔
      Memory.nib m (3 * n) = none ∨ Memory.nib m (3 * n + 1) = none ∨ Memory.nib m (3 * n + 2) = none := by
  simp only [Memory.readLed, nibbleNumber_config, channelPlace]
  cases Memory.nib m (3 * n + 0) <;> cases Memory.nib m (3 * n + 1) <;> cases Memory.nib m (3 * n + 2) <;> simp

/-- RDBYTE in range with an undefined nibble is a fault (R132). -/
theorem exec_rdbyte_fault {ca : BitVec 7} {s : State} (ha : ca.toNat ≤ 95)
    (hb : Memory.readByte s.fb ca.toNat = none) :
    exec (.rdbyte ca) s = .fault (.uninitialisedRead (.byteAddress ca.toNat)) := by
  simp [exec, execRdbyte, byteAddress, ha, hb]

/-- RDPIX in range with an undefined nibble is a fault (R136). -/
theorem exec_rdpix_fault {ci cj ck : Coord} {s : State} {p : LedCoord} (hc : coordinate ci cj ck = some p)
    (hb : Memory.readLed Config.layout s.fb p.index = none) :
    exec (.rdpix ci cj ck) s = .fault (.uninitialisedRead (.ledIndex p.index)) := by
  simp [exec, execRdpix, readPixel, hc, hb]

/-- Settles O39: each nibble holds its history, by induction on the commands, and every read answers from its nibbles. -/
theorem readsSeeTheLatestWrite : Obligations.ReadsSeeTheLatestWrite := by
  intro is s t h
  have hnib : ∀ q, q < 192 → nibbleHistory q is (Memory.nib s.fb q) = Memory.nib t.fb q :=
    fun q hq => (nib_execAll h hq).symm
  refine ⟨fun q hq => (hnib q hq).symm, fun ca hi lo ha hhi hlo => ?_, fun ca ha hnone => ?_,
    fun ci cj ck p hc hnone => ?_, fun ci cj ck p r g b hc hr hg hb => ?_⟩
  · rw [hnib _ (by omega)] at hhi hlo
    exact exec_rdbyte_next.2 ⟨ha, hi ++ lo, Memory.readByte_eq_some.2 ⟨hi, lo, hhi, hlo, rfl⟩, rfl⟩
  · rw [hnib _ (by omega), hnib _ (by omega)] at hnone
    exact exec_rdbyte_fault ha (Memory.readByte_eq_none.2 hnone)
  · have := p.index_lt
    rw [hnib _ (by omega), hnib _ (by omega), hnib _ (by omega)] at hnone
    exact exec_rdpix_fault hc (readLed_config_eq_none.2 hnone)
  · have := p.index_lt
    rw [hnib _ (by omega)] at hr hg hb
    exact exec_rdpix_next.2 ⟨p, r, g, b, hc, readLed_config_eq_some.2 ⟨hr, hg, hb⟩, rfl⟩

end Sys2Proof.Machine
end

section
/-! PROOF. R52, R57: repeated writes, writes to one LED and writes to different LEDs. -/

namespace Sys2Proof.Machine

/-! ## Two writes of LEDs -/

/-- The later of two writes to a LED alone counts. -/
theorem writeLed_writeLed_same {L : Layout} (h : L.meetsSource = true) {n : Nat} (hn : n < 64) {m : Memory}
    (hm : Memory.wf m = true) (r g b r' g' b' : Nibble) :
    Memory.writeLed L (Memory.writeLed L m n r g b) n r' g' b' = Memory.writeLed L m n r' g' b' := by
  refine Memory.ext_of_nib (wf_writeLed h hn _ _ _ (wf_writeLed h hn _ _ _ hm)) (wf_writeLed h hn _ _ _ hm) fun q => ?_
  simp only [nib_writeLed h]
  split_ifs <;> rfl

/-- Writes to different LEDs commute, since the LEDs share no nibble. -/
theorem writeLed_comm {L : Layout} (h : L.meetsSource = true) {n n' : Nat} (hn : n < 64) (hn' : n' < 64)
    (hne : n ≠ n') {m : Memory} (hm : Memory.wf m = true) (r g b r' g' b' : Nibble) :
    Memory.writeLed L (Memory.writeLed L m n r g b) n' r' g' b' =
      Memory.writeLed L (Memory.writeLed L m n' r' g' b') n r g b := by
  have hdisj : ∀ ch ch', nibbleNumber L n ch ≠ nibbleNumber L n' ch' := fun _ _ e => hne (nibbleNumber_inj h e).1
  refine Memory.ext_of_nib (wf_writeLed h hn' _ _ _ (wf_writeLed h hn _ _ _ hm))
    (wf_writeLed h hn _ _ _ (wf_writeLed h hn' _ _ _ hm)) fun q => ?_
  by_cases hq : ∃ ch, q = nibbleNumber L n ch
  · obtain ⟨ch, rfl⟩ := hq
    simp only [nib_writeLed h, hdisj, if_false]
  · simp only [not_exists] at hq
    simp only [nib_writeLed h, hq, if_false]

/-- Repeating a pixel write changes nothing, out of range included. -/
theorem writePixel_writePixel_self {w : Nat} {L : Layout} (h : L.meetsSource = true) (ci cj ck : BitVec w)
    (cr cg cb : Byte) {m : Memory} (hm : Memory.wf m = true) :
    writePixel L ci cj ck cr cg cb (writePixel L ci cj ck cr cg cb m) = writePixel L ci cj ck cr cg cb m := by
  cases hc : coordinate ci cj ck with
  | none => simp only [writePixel_none hc]
  | some p => simp only [writePixel_some hc, writeLed_writeLed_same h p.index_lt hm]

/-! ## One command after another -/

/-- Two lists of commands one after the other answer a next state exactly where the first does and the second does from
there. -/
theorem execAll_append_next {is js : List Instr} {s t : State} :
    execAll (is ++ js) s = .next t ↔ ∃ u, execAll is s = .next u ∧ execAll js u = .next t := by
  induction is generalizing s with
  | nil => simp [execAll]
  | cons i is ih =>
    simp only [List.cons_append, execAll_cons_next, ih]
    constructor
    · rintro ⟨u, hu, v, hv, ht⟩
      exact ⟨v, ⟨u, hu, hv⟩, ht⟩
    · rintro ⟨v, ⟨u, hu, hv⟩, ht⟩
      exact ⟨u, hu, v, hv, ht⟩

/-- Two pixel writes in a row write the one framebuffer after the other. -/
theorem execAll_wrpix_wrpix (ci cj ck di dj dk : Coord) (cr cg cb dr dg db : Byte) (s : State) :
    execAll [.wrpix ci cj ck cr cg cb, .wrpix di dj dk dr dg db] s =
      .next (s.withFb (writePixel Config.layout di dj dk dr dg db
        (writePixel Config.layout ci cj ck cr cg cb s.fb))) := rfl

/-- Settles O23: two writes to one LED are the later one, and two LEDs share no nibble. -/
theorem laterWritesWinAndOthersCommute : Obligations.LaterWritesWinAndOthersCommute := by
  intro ci cj ck di dj dk cr cg cb dr dg db s p p' hm hc hd
  have hL := config_layout_meetsSource
  refine ⟨fun is t hp h => ?_, fun t ch hp h => ?_, fun hp => ?_, fun hp => ?_⟩
  · obtain ⟨u, -, ht⟩ := execAll_append_next.1 h
    cases ht
    rw [State.withFb_fb, writePixel_some hd, hp]
    exact readLed_writeLed_self hL _ _ _ _ _
  · cases h
    have hdisj : ∀ ch', nibbleNumber Config.layout p.index ch ≠ nibbleNumber Config.layout p'.index ch' :=
      fun _ e => hp (LedCoord.index_inj (nibbleNumber_inj hL e).1)
    simp only [State.withFb_fb, writePixel_some hd, nib_writeLed hL, hdisj, if_false]
  · subst hp
    rw [execAll_wrpix_wrpix, exec_wrpix, writePixel_some hc, writePixel_some hd, writePixel_some hd,
      writeLed_writeLed_same hL p.index_lt hm]
  · have hne : p.index ≠ p'.index := fun e => hp (LedCoord.index_inj e)
    simp only [execAll_wrpix_wrpix, writePixel_some hc, writePixel_some hd,
      writeLed_comm hL p.index_lt p'.index_lt hne hm]

/-- A read that completes changes neither the framebuffer nor the host's list. -/
theorem exec_read_frame {i : Instr} {s t : State} (hi : i.isRead = true) (h : exec i s = .next t) :
    t.fb = s.fb ∧ t.host = s.host := by
  obtain ⟨rfl, -⟩ | ⟨rfl, -⟩ | ⟨_, _, _, _, _, _, rfl, -⟩ | ⟨_, _, -, -, -, rfl⟩ | ⟨_, _, _, _, _, _, _, -, -, -, rfl⟩ :=
    exec_next_cases h
  case inl | inr.inl | inr.inr.inl => cases hi
  all_goals exact ⟨rfl, rfl⟩

/-- Settles O24: the state a write leaves holds what the write would write again. -/
theorem repeatingAWriteChangesNothing : Obligations.RepeatingAWriteChangesNothing := by
  refine ⟨fun s t i hi h => exec_read_frame hi h, fun s t ci cj ck cr cg cb hm h => ?_, fun s t h => ?_,
    fun m q q' v hne => Memory.nib_setNib_ne hne v m⟩
  · cases h
    rw [exec_wrpix, State.withFb_fb, writePixel_writePixel_self config_layout_meetsSource ci cj ck cr cg cb hm]
    rfl
  · cases h
    rfl

end Sys2Proof.Machine
end

section
/-! PROOF. R75: each reserved `op` decodes to its own row, and each reserved row is refused under its own `op`. -/

namespace Sys2Proof.Machine

/-! ## The reserved rows of the opcode map -/

theorem decode_eq_reserved101 {c : Command} (h : c.op = 0b101#3) : decode c = .reserved101 := by
  simp only [decode, h]

theorem decode_eq_reserved110 {c : Command} (h : c.op = 0b110#3) : decode c = .reserved110 := by
  simp only [decode, h]

theorem decode_eq_reserved111 {c : Command} (h : c.op = 0b111#3) : decode c = .reserved111 := by
  rw [decode, h]
  rfl

/-! ## Their meaning -/

theorem exec_reserved101 (s : State) : exec .reserved101 s = .refused (.reservedOpcode 0b101#3) := rfl

theorem exec_reserved110 (s : State) : exec .reserved110 s = .refused (.reservedOpcode 0b110#3) := rfl

theorem exec_reserved111 (s : State) : exec .reserved111 s = .refused (.reservedOpcode 0b111#3) := rfl

/-- Settles O29: by the three reserved values of `op`, the decoder's row and then the refusal of that row. -/
theorem reservedOpcodesAreRefused : Obligations.ReservedOpcodesAreRefused := by
  rintro c s (hop | hop | hop)
  · rw [decode_eq_reserved101 hop, exec_reserved101, hop]
  · rw [decode_eq_reserved110 hop, exec_reserved110, hop]
  · rw [decode_eq_reserved111 hop, exec_reserved111, hop]

end Sys2Proof.Machine
end

section
/-! PROOF. R100 to R109: what a WRPIX writes, what it leaves alone, and its two forms. -/

namespace Sys2Proof.Machine

/-! ## The outcome of a WRPIX -/

/-- A state with a new framebuffer drives no response (R70). -/
theorem State.drivesNothing_withFb (s : State) (m : Memory) : (s.withFb m).DrivesNothing :=
  ⟨rfl, rfl, rfl, rfl, rfl⟩

/-- WRPIX in range writes its LED's three quantised channels (R104). -/
theorem exec_wrpix_some {ci cj ck : Coord} {p : LedCoord} (hc : coordinate ci cj ck = some p) (cr cg cb : Byte)
    (s : State) :
    exec (.wrpix ci cj ck cr cg cb) s =
      .next (s.withFb (Memory.writeLed Config.layout s.fb p.index (quantise cr) (quantise cg) (quantise cb))) := by
  rw [exec_wrpix, writePixel_some hc]

/-- WRPIX out of range writes nothing (R101). -/
theorem exec_wrpix_none {ci cj ck : Coord} (hc : coordinate ci cj ck = none) (cr cg cb : Byte) (s : State) :
    exec (.wrpix ci cj ck cr cg cb) s = .next (s.withFb s.fb) := by
  rw [exec_wrpix, writePixel_none hc]

theorem decode_eq_wrpix {c : Command} (h : c.op = 0b010#3) :
    decode c = .wrpix c.ci c.cj c.ck c.cr c.cg c.cb := by
  simp only [decode, h]

/-- Settles O12: the decoder's row of `op = 010`, whose meaning has a next state on every operand. -/
theorem wrpixNeverStops : Obligations.WrpixNeverStops := by
  intro c s hop
  rw [decode_eq_wrpix hop]
  exact ⟨rfl, _, exec_wrpix c.ci c.cj c.ck c.cr c.cg c.cb s, rfl, rfl, s.drivesNothing_withFb _⟩

/-! ## Out of range -/

/-- A component whose integer is outside 0..3 fails the test of its upper bits (R10). -/
theorem inRange_ne_true_of_outOfRange {c : Coord} (h : OutOfRange c) : inRange c ≠ true := by
  intro hr
  have := (inRange_iff_toInt (by decide) c).1 hr
  unfold OutOfRange at h
  omega

/-- One component out of range is enough to address no LED (R101). -/
theorem coordinate_eq_none_of_outOfRange {ci cj ck : Coord} (h : OutOfRange ci ∨ OutOfRange cj ∨ OutOfRange ck) :
    coordinate ci cj ck = none := by
  refine Option.eq_none_iff_forall_ne_some.2 fun p hp => ?_
  obtain ⟨⟨hi, -⟩, ⟨hj, -⟩, hk, -⟩ := (coordinate_eq_some_iff ci cj ck p).1 hp
  rcases h with h | h | h
  · exact inRange_ne_true_of_outOfRange h hi
  · exact inRange_ne_true_of_outOfRange h hj
  · exact inRange_ne_true_of_outOfRange h hk

/-- Settles O11: out of range there is no LED, so the framebuffer is replaced by itself. -/
theorem wrpixOutOfRangeIsSilent : Obligations.WrpixOutOfRangeIsSilent := by
  intro ci cj ck cr cg cb s h
  exact ⟨_, exec_wrpix_none (coordinate_eq_none_of_outOfRange h) cr cg cb s, rfl, rfl, s.drivesNothing_withFb _⟩

/-! ## Colour quantisation -/

/-- The stored nibble is the channel without its low four bits (R47). -/
theorem quantise_toNat (c : Byte) : (quantise c).toNat = c.toNat / 16 := by
  have hc : c.toNat / 16 < 2 ^ 4 := by have := c.isLt; omega
  rw [quantise, hiNibble, BitVec.extractLsb'_toNat, Nat.shiftRight_eq_div_pow, Nat.mod_eq_of_lt hc]

theorem quantise_eq_of_div_eq {c c' : Byte} (h : c.toNat / 16 = c'.toNat / 16) : quantise c = quantise c' :=
  BitVec.eq_of_toNat_eq (by rw [quantise_toNat, quantise_toNat, h])

/-- The pixel write uses its colour through the quantised channels only (R103). -/
theorem writePixel_congr_quantise {w : Nat} {cr cg cb cr' cg' cb' : Byte} (hr : quantise cr = quantise cr')
    (hg : quantise cg = quantise cg') (hb : quantise cb = quantise cb') (L : Layout) (ci cj ck : BitVec w)
    (m : Memory) : writePixel L ci cj ck cr cg cb m = writePixel L ci cj ck cr' cg' cb' m := by
  cases hc : coordinate ci cj ck with
  | none => rw [writePixel_none hc, writePixel_none hc]
  | some p => rw [writePixel_some hc, writePixel_some hc, hr, hg, hb]

/-- A WRPIX in range leaves its LED with the quantised channels (R103). -/
theorem readLed_exec_wrpix {ci cj ck : Coord} {p : LedCoord} (hc : coordinate ci cj ck = some p) {cr cg cb : Byte}
    {s t : State} (h : exec (.wrpix ci cj ck cr cg cb) s = .next t) :
    Memory.readLed Config.layout t.fb p.index = some (quantise cr, quantise cg, quantise cb) := by
  rw [exec_wrpix_some hc] at h
  cases h
  exact readLed_writeLed_self config_layout_meetsSource _ _ _ _ _

/-- Settles O13: the channels enter the write through their quantised values alone, and those read back. -/
theorem lowColourBitsHaveNoEffect : Obligations.LowColourBitsHaveNoEffect := by
  refine ⟨fun ci cj ck cr cg cb s t p hc h => readLed_exec_wrpix hc h,
    fun ci cj ck cr cg cb cr' cg' cb' s hr hg hb => ?_⟩
  rw [exec_wrpix, exec_wrpix, writePixel_congr_quantise (quantise_eq_of_div_eq hr) (quantise_eq_of_div_eq hg)
    (quantise_eq_of_div_eq hb)]

/-! ## What the write of a LED leaves alone -/

/-- With the layout of R45 only the nibbles `3n`, `3n + 1` and `3n + 2` are written (R108). -/
theorem nib_writeLed_config_ne {n q : Nat} (h0 : q ≠ 3 * n) (h1 : q ≠ 3 * n + 1) (h2 : q ≠ 3 * n + 2) (m : Memory)
    (r g b : Nibble) : Memory.nib (Memory.writeLed Config.layout m n r g b) q = Memory.nib m q := by
  rw [nib_writeLed_config, if_neg h0, if_neg h1, if_neg h2]

/-- The nibbles written lie in the first two bytes of the group for an even LED, in the last two for an odd one
(R43, R104). -/
theorem nib_writeLed_config_outside {p : LedCoord} {q : Nat} (h0 : q / 2 ≠ p.groupBase + (if p.odd then 1 else 0))
    (h1 : q / 2 ≠ p.groupBase + (if p.odd then 2 else 1)) (m : Memory) (r g b : Nibble) :
    Memory.nib (Memory.writeLed Config.layout m p.index r g b) q = Memory.nib m q := by
  have hbase := p.groupBase_eq
  have hpar := p.odd_iff
  have hne : q ≠ 3 * p.index ∧ q ≠ 3 * p.index + 1 ∧ q ≠ 3 * p.index + 2 := by
    split_ifs at h0 h1 with hodd
    · have := hpar.1 hodd
      omega
    · have := mt hpar.2 hodd
      omega
  obtain ⟨hr, hg, hb⟩ := hne
  exact nib_writeLed_config_ne hr hg hb m r g b

/-- Every byte but those two reads as before. -/
theorem readByte_writeLed_config_outside {p : LedCoord} {a : Nat} (h0 : a ≠ p.groupBase + (if p.odd then 1 else 0))
    (h1 : a ≠ p.groupBase + (if p.odd then 2 else 1)) (m : Memory) (r g b : Nibble) :
    Memory.readByte (Memory.writeLed Config.layout m p.index r g b) a = Memory.readByte m a := by
  have hhi : 2 * a / 2 = a := by omega
  have hlo : (2 * a + 1) / 2 = a := by omega
  rw [Memory.readByte, nib_writeLed_config_outside (by rwa [hhi]) (by rwa [hhi]),
    nib_writeLed_config_outside (by rwa [hlo]) (by rwa [hlo]), Memory.readByte]

/-- Settles O9: WRPIX in range is the write of its LED, which touches three nibbles, one LED and two bytes. -/
theorem wrpixWritesExactlyItsLed : Obligations.WrpixWritesExactlyItsLed := by
  intro ci cj ck cr cg cb s p hc
  have hexec := exec_wrpix_some hc cr cg cb s
  obtain ⟨hr, hg, hb⟩ := readLed_config_eq_some.1 (readLed_exec_wrpix hc hexec)
  exact ⟨_, hexec, hr, hg, hb, fun q h0 h1 h2 => nib_writeLed_config_ne h0 h1 h2 _ _ _ _,
    fun p' hp => readLed_writeLed_ne config_layout_meetsSource (mt LedCoord.index_inj hp) _ _ _ _,
    fun a h0 h1 => readByte_writeLed_config_outside h0 h1 _ _ _ _, rfl, s.drivesNothing_withFb _⟩

/-! ## The byte form -/

/-- Writing back what a nibble of a canonical framebuffer holds, defined or not, changes nothing. -/
theorem Memory.setNib_nib_self {m : Memory} (hm : Memory.wf m = true) {q : Nat} (hq : q < 192) :
    Memory.setNib m q (Memory.nib m q) = m := by
  refine Memory.ext_of_nib (Memory.wf_setNib hq _ hm) hm fun q' => ?_
  by_cases h : q' = q
  · rw [h, Memory.nib_setNib_self hm]
  · exact Memory.nib_setNib_ne h _ m

/-- With the layout of R45 a LED is written nibble by nibble, upwards from `3n`. -/
theorem writeLed_config (m : Memory) (n : Nat) (r g b : Nibble) :
    Memory.writeLed Config.layout m n r g b =
      Memory.setNib (Memory.setNib (Memory.setNib m (3 * n) (some r)) (3 * n + 1) (some g)) (3 * n + 2) (some b) := by
  simp only [Memory.writeLed, nibbleNumber_config, channelPlace, Nat.add_zero]

/-- The byte form of an odd LED writes back the partner's nibble first, and then the LED's three (R104). -/
theorem writePixelBytes_odd {w : Nat} {ci cj ck : BitVec w} {p : LedCoord} (hc : coordinate ci cj ck = some p)
    (hodd : p.odd = true) (cr cg cb : Byte) {m : Memory} (hm : Memory.wf m = true) :
    writePixelBytes ci cj ck cr cg cb m =
      Memory.writeLed Config.layout m p.index (quantise cr) (quantise cg) (quantise cb) := by
  have hlt := p.index_lt
  have hbase := p.groupBase_eq
  have hpar := p.odd_iff.1 hodd
  have hred : 2 * (p.groupBase + 1) + 1 = 3 * p.index := by omega
  have hgreen : 2 * (p.groupBase + 2) = 3 * p.index + 1 := by omega
  simp only [writePixelBytes, hc, hodd, if_true, Memory.setHalves]
  rw [Memory.setNib_nib_self hm (by omega), hred, hgreen, writeLed_config]

/-- The byte form of an even LED writes the LED's three nibbles and then the partner's back, which they left alone
(R104). -/
theorem writePixelBytes_even {w : Nat} {ci cj ck : BitVec w} {p : LedCoord} (hc : coordinate ci cj ck = some p)
    (heven : p.odd = false) (cr cg cb : Byte) {m : Memory} (hm : Memory.wf m = true) :
    writePixelBytes ci cj ck cr cg cb m =
      Memory.writeLed Config.layout m p.index (quantise cr) (quantise cg) (quantise cb) := by
  have hlt := p.index_lt
  have hbase := p.groupBase_eq
  have hpar := mt p.odd_iff.2 (Bool.eq_false_iff.1 heven)
  have hred : 2 * p.groupBase = 3 * p.index := by omega
  have hblue : 2 * (p.groupBase + 1) = 3 * p.index + 2 := by omega
  have hwf := wf_writeLed config_layout_meetsSource hlt (quantise cr) (quantise cg) (quantise cb) hm
  have hkept := nib_writeLed_config_ne (n := p.index) (q := 3 * p.index + 2 + 1) (by omega) (by omega) (by omega) m
    (quantise cr) (quantise cg) (quantise cb)
  simp only [writePixelBytes, hc, heven, Bool.false_eq_true, if_false, Memory.setHalves]
  rw [hred, hblue, ← writeLed_config, ← hkept, Memory.setNib_nib_self hwf (by omega)]

/-- R104: on a canonical framebuffer the masked byte writes and the nibble writes are one, out of range included. -/
theorem writePixelBytes_eq_writePixel {w : Nat} (ci cj ck : BitVec w) (cr cg cb : Byte) {m : Memory}
    (hm : Memory.wf m = true) :
    writePixelBytes ci cj ck cr cg cb m = writePixel Config.layout ci cj ck cr cg cb m := by
  cases hc : coordinate ci cj ck with
  | none => simp only [writePixelBytes, writePixel_none hc, hc]
  | some p =>
    rw [writePixel_some hc]
    cases hodd : p.odd with
    | false => exact writePixelBytes_even hc hodd cr cg cb hm
    | true => exact writePixelBytes_odd hc hodd cr cg cb hm

/-- Settles O10: the partner's nibble is written back as it was, so the two byte writes are the three nibble writes. -/
theorem wrpixNibbleAndByteFormsAgree : Obligations.WrpixNibbleAndByteFormsAgree := by
  intro ci cj ck cr cg cb s hm
  refine ⟨_, exec_wrpix ci cj ck cr cg cb s, (writePixelBytes_eq_writePixel ci cj ck cr cg cb hm).symm,
    fun hc => writePixel_none hc cr cg cb s.fb, fun p hc => ?_⟩
  rw [State.withFb_fb, writePixel_some hc, writeLed_config]
  rfl

end Sys2Proof.Machine
end

section
/-! PROOF. R110: a colour written stays until a CLEAR or a WRPIX to its own LED. -/

namespace Sys2Proof.Machine

/-- The command is no CLEAR and no WRPIX to `p`: the commands R110 allows between a write and its read. -/
def SparesLed (p : LedCoord) (i : Instr) : Prop :=
  i ≠ .clear ∧ ∀ ci cj ck cr cg cb, i = .wrpix ci cj ck cr cg cb → coordinate ci cj ck ≠ some p

/-- A command that spares a LED leaves its colour, whole or not. -/
theorem readLed_exec_of_sparesLed {p : LedCoord} {i : Instr} (hi : SparesLed p i) {s t : State}
    (h : exec i s = .next t) :
    Memory.readLed Config.layout t.fb p.index = Memory.readLed Config.layout s.fb p.index := by
  obtain ⟨hclear, hwrite⟩ := hi
  obtain ⟨-, rfl⟩ | ⟨rfl, -⟩ | ⟨ci, cj, ck, cr, cg, cb, rfl, rfl⟩ | ⟨_, _, -, -, -, rfl⟩ |
    ⟨_, _, _, _, _, _, _, -, -, -, rfl⟩ := exec_next_cases h
  case inr.inl => exact absurd rfl hclear
  case inr.inr.inl =>
    have hne := hwrite ci cj ck cr cg cb rfl
    cases hc : coordinate ci cj ck with
    | none => rw [State.withFb_fb, writePixel_none hc]
    | some p' =>
      have hp : p ≠ p' := fun e => hne (e ▸ hc)
      rw [State.withFb_fb, writePixel_some hc]
      exact readLed_writeLed_ne config_layout_meetsSource (mt LedCoord.index_inj hp) _ _ _ _
  all_goals rfl

/-- So does a list of such commands. -/
theorem readLed_execAll_of_sparesLed {p : LedCoord} {is : List Instr} (his : ∀ i ∈ is, SparesLed p i)
    {s t : State} (h : execAll is s = .next t) :
    Memory.readLed Config.layout t.fb p.index = Memory.readLed Config.layout s.fb p.index := by
  induction is generalizing s with
  | nil =>
    cases h
    rfl
  | cons i is ih =>
    obtain ⟨u, hu, ht⟩ := execAll_cons_next.1 h
    obtain ⟨hi, his⟩ := List.forall_mem_cons.1 his
    rw [ih his ht, readLed_exec_of_sparesLed hi hu]

/-- Settles O20: the write puts the quantised channels into the LED, and by induction the commands between leave them
there for the read. -/
theorem writeThenReadGivesTheHighBits : Obligations.WriteThenReadGivesTheHighBits := by
  intro ci cj ck cr cg cb is s t p hc his h
  obtain ⟨u, hu, ht⟩ := execAll_cons_next.1 h
  have hled : Memory.readLed Config.layout t.fb p.index = some (quantise cr, quantise cg, quantise cb) :=
    (readLed_execAll_of_sparesLed his ht).trans (readLed_exec_wrpix hc hu)
  exact ⟨_, exec_rdpix_next.2 ⟨p, _, _, _, hc, hled, rfl⟩, rfl, rfl, rfl, rfl⟩

end Sys2Proof.Machine
end

section
/-! PROOF. R120 to R123: NOP changes nothing, and CLEAR leaves a zero frame that says nothing of the past. -/

namespace Sys2Proof.Machine

/-! ## NOP -/

theorem decode_eq_nop {c : Command} (h : c.op = 0b000#3) : decode c = .nop := by
  simp only [decode, h]

/-- No command sees the responses and the frame that stand on the ports before it (R72). -/
theorem exec_undriven (i : Instr) (s : State) : exec i s.undriven = exec i s := by
  cases i <;> rfl

/-- Settles O6: NOP only takes away what stands on the ports, which no command sees. -/
theorem nopChangesNothing : Obligations.NopChangesNothing := by
  refine ⟨fun c hop => decode_eq_nop hop, fun s => ⟨_, exec_nop s, rfl, rfl, rfl, rfl, rfl, rfl, rfl⟩,
    fun s t i h => ?_⟩
  cases h
  exact exec_undriven i s

/-! ## CLEAR as a loop of byte writes -/

/-- Every nibble after a byte is written, by cases. -/
theorem Memory.nib_writeByte (m : Memory) (a : Nat) (v : Byte) (q : Nat) :
    Memory.nib (Memory.writeByte m a v) q =
      if q = 2 * a + 1 then some (loNibble v) else if q = 2 * a then some (hiNibble v) else Memory.nib m q := by
  simp only [Memory.writeByte, Memory.setHalves, Memory.nib_setNib]

/-- A zero byte written makes both its nibbles 0. -/
theorem Memory.nib_writeByte_zero (m : Memory) (a q : Nat) :
    Memory.nib (Memory.writeByte m a 0#8) q = if q / 2 = a then some 0#4 else Memory.nib m q := by
  have hhi : hiNibble 0#8 = 0#4 := rfl
  have hlo : loNibble 0#8 = 0#4 := rfl
  have hbyte : q / 2 = a ↔ q = 2 * a + 1 ∨ q = 2 * a := by omega
  simp only [Memory.nib_writeByte, hhi, hlo, hbyte, ite_or]

/-- Zero bytes written to a list of addresses make their nibbles 0 and leave the others. -/
theorem Memory.nib_foldl_writeByte_zero (as : List Nat) (m : Memory) (q : Nat) :
    Memory.nib (as.foldl (fun m a => Memory.writeByte m a 0#8) m) q =
      if q / 2 ∈ as then some 0#4 else Memory.nib m q := by
  induction as generalizing m with
  | nil => simp
  | cons a as ih =>
    rw [List.foldl_cons, ih, Memory.nib_writeByte_zero]
    by_cases hmem : q / 2 ∈ as <;> simp [hmem]

theorem Memory.wf_clearLoop {m : Memory} (hm : Memory.wf m = true) : Memory.wf (Memory.clearLoop m) = true :=
  List.foldlRecOn (motive := fun m => Memory.wf m = true) _ _ hm
    fun _ hm _ ha => Memory.wf_writeByte (List.mem_range.1 ha) _ hm

/-- On a canonical framebuffer R122's loop and the zeroed framebuffer are the same list. -/
theorem Memory.clearLoop_eq_zeroed {m : Memory} (hm : Memory.wf m = true) : Memory.clearLoop m = Memory.zeroed := by
  refine Memory.ext_of_nib (Memory.wf_clearLoop hm) Memory.wf_zeroed fun q => ?_
  have hrange : q / 2 ∈ List.range 96 ↔ q < 192 := List.mem_range.trans (by omega)
  rw [Memory.clearLoop, Memory.nib_foldl_writeByte_zero, Memory.nib_zeroed]
  by_cases hq : q < 192
  · rw [if_pos (hrange.2 hq), if_pos hq]
  · rw [if_neg (mt hrange.1 hq), if_neg hq, Memory.nib_eq_none_of_wf (by omega) hm]

/-! ## What reads find after CLEAR -/

theorem Memory.nib_zeroed_of_lt {q : Nat} (hq : q < 192) : Memory.nib Memory.zeroed q = some 0 := by
  rw [Memory.nib_zeroed, if_pos hq]
  rfl

theorem Memory.readByte_zeroed {a : Nat} (ha : a < 96) : Memory.readByte Memory.zeroed a = some 0 :=
  Memory.readByte_eq_some.2 ⟨0, 0, Memory.nib_zeroed_of_lt (by omega), Memory.nib_zeroed_of_lt (by omega), rfl⟩

theorem readLed_zeroed {n : Nat} (hn : n < 64) :
    Memory.readLed Config.layout Memory.zeroed n = some (0, 0, 0) :=
  readLed_config_eq_some.2 ⟨Memory.nib_zeroed_of_lt (by omega), Memory.nib_zeroed_of_lt (by omega),
    Memory.nib_zeroed_of_lt (by omega)⟩

/-- Settles O7: the loop of byte writes gives the zeroed framebuffer, which reads 0 everywhere. -/
theorem clearZeroesTheFrame : Obligations.ClearZeroesTheFrame := fun s hm =>
  ⟨_, exec_clear s, (Memory.clearLoop_eq_zeroed hm).symm, fun _ => Memory.nib_zeroed_of_lt,
    fun _ => Memory.readByte_zeroed, fun p => readLed_zeroed p.index_lt, rfl, s.drivesNothing_withFb _⟩

/-! ## CLEAR and the past -/

/-- A stretch of bytes that all read `v` is a list of `v` alone. -/
theorem Memory.bytesFrom_eq_replicate {m : Memory} {v : Byte} {a k : Nat}
    (h : ∀ b, a ≤ b → b < a + k → Memory.readByte m b = some v) :
    Memory.bytesFrom m a k = some (List.replicate k v) := by
  induction k generalizing a with
  | zero => rfl
  | succ k ih =>
    have hhead := h a le_rfl (by omega)
    have htail := ih (a := a + 1) fun b hb hb' => h b (by omega) (by omega)
    simp only [Memory.bytesFrom, hhead, htail, List.replicate_succ]

theorem Memory.frame_zeroed : Memory.frame Memory.zeroed = some (List.replicate 96 0) :=
  Memory.bytesFrom_eq_replicate fun _ _ hb => Memory.readByte_zeroed (by omega)

/-- Commands change nothing of what the host does next. -/
theorem execAll_host_eq {is : List Instr} {s t : State} (h : execAll is s = .next t) : t.host = s.host := by
  induction is generalizing s with
  | nil =>
    cases h
    rfl
  | cons i is ih =>
    obtain ⟨u, hu, ht⟩ := execAll_cons_next.1 h
    rw [ih ht, exec_host_eq hu]

/-- CLEAR sees of its state only what the host does next: all else it writes anew. -/
theorem exec_clear_eq_of_host_eq {s t : State} (h : t.host = s.host) : exec .clear t = exec .clear s := by
  simp only [exec_clear, State.withFb, State.undriven, h]

/-- Settles O8: CLEAR writes anew all that commands can change, so two states that commands lead between have the same
CLEAR. -/
theorem clearForgetsThePast : Obligations.ClearForgetsThePast := by
  refine ⟨fun s => ⟨_, exec_clear s⟩, fun t q h hq => ?_,
    fun is s t h => exec_clear_eq_of_host_eq (execAll_host_eq h),
    fun s t h => (exec_clear_eq_of_host_eq (exec_host_eq h)).trans h, fun s => ?_⟩
  · cases h
    exact Memory.nib_zeroed_of_lt hq
  · simp only [observe, exec_clear, State.withFb_fb, frameOutcome, Memory.frame_zeroed]
    rfl

end Sys2Proof.Machine
end

section
/-! PROOF. R138: what a run leaves in each LED is its colour history, so a frame written whole reads back. -/

namespace Sys2Proof.Machine

/-! ## What a run leaves in a LED -/

/-- One command leaves in each LED what `colourAfter` says of it. -/
theorem readLed_exec (p : LedCoord) {i : Instr} {s t : State} (h : exec i s = .next t) :
    Memory.readLed Config.layout t.fb p.index = colourAfter p (Memory.readLed Config.layout s.fb p.index) i := by
  obtain ⟨rfl, rfl⟩ | ⟨rfl, rfl⟩ | ⟨ci, cj, ck, cr, cg, cb, rfl, -⟩ | ⟨_, _, rfl, -, -, rfl⟩ |
    ⟨_, _, _, _, _, _, _, rfl, -, -, rfl⟩ := exec_next_cases h
  case inr.inl => exact readLed_zeroed p.index_lt
  case inr.inr.inl =>
    by_cases hc : coordinate ci cj ck = some p
    · rw [readLed_exec_wrpix hc h, colourAfter, if_pos hc]
    · have hspares : SparesLed p (.wrpix ci cj ck cr cg cb) := by
        refine ⟨nofun, fun _ _ _ _ _ _ e => ?_⟩
        cases e
        exact hc
      rw [readLed_exec_of_sparesLed hspares h, colourAfter, if_neg hc]
  all_goals rfl

/-- A list of commands leaves in each LED what its history says. -/
theorem readLed_execAll (p : LedCoord) {is : List Instr} {s t : State} (h : execAll is s = .next t) :
    Memory.readLed Config.layout t.fb p.index =
      colourHistory p is (Memory.readLed Config.layout s.fb p.index) := by
  induction is generalizing s with
  | nil =>
    cases h
    rfl
  | cons i is ih =>
    obtain ⟨u, hu, ht⟩ := execAll_cons_next.1 h
    rw [ih ht, readLed_exec p hu, colourHistory]

/-! ## What was there before shows only where nothing was written -/

theorem colourAfter_eq_or (p : LedCoord) (old : Option Colour) (i : Instr) :
    colourAfter p old i = (colourAfter p none i).or old := by
  cases i
  case wrpix =>
    simp only [colourAfter]
    split <;> rfl
  all_goals rfl

theorem colourHistory_eq_or (p : LedCoord) (is : List Instr) (old : Option Colour) :
    colourHistory p is old = (colourHistory p is none).or old := by
  induction is generalizing old with
  | nil => rfl
  | cons i is ih =>
    calc colourHistory p is (colourAfter p old i)
      _ = (colourHistory p is none).or ((colourAfter p none i).or old) := by rw [ih, colourAfter_eq_or]
      _ = (colourHistory p is (colourAfter p none i)).or old := by rw [← Option.or_assoc, ← ih]

/-- A LED that the commands write ends with the colour they write, whatever it held before. -/
theorem colourHistory_eq_some_of_none {p : LedCoord} {is : List Instr} {c : Colour}
    (h : colourHistory p is none = some c) (old : Option Colour) : colourHistory p is old = some c := by
  rw [colourHistory_eq_or, h, Option.some_or]

/-! ## Lists of pixel writes complete -/

theorem exec_completes_of_isPixelWrite {i : Instr} (hi : i.isPixelWrite = true) (s : State) :
    Completes (exec i s) := by
  cases i
  case wrpix ci cj ck cr cg cb => exact ⟨_, exec_wrpix ci cj ck cr cg cb s⟩
  all_goals cases hi

theorem execAll_completes_of_isPixelWrite {is : List Instr} (his : is.all Instr.isPixelWrite = true) (s : State) :
    Completes (execAll is s) := by
  induction is generalizing s with
  | nil => exact ⟨s, rfl⟩
  | cons i is ih =>
    obtain ⟨hi, his⟩ := (Bool.and_eq_true _ _).mp his
    obtain ⟨u, hu⟩ := exec_completes_of_isPixelWrite hi s
    obtain ⟨t, ht⟩ := ih his u
    exact ⟨t, execAll_cons_next.2 ⟨u, hu, ht⟩⟩

/-! ## The read of a whole LED -/

/-- RDPIX in range of a LED whose nibbles are defined drives its colour (R136). -/
theorem exec_rdpix_drives {ci cj ck : Coord} {s : State} {p : LedCoord} {r g b : Nibble}
    (hc : coordinate ci cj ck = some p) (hled : Memory.readLed Config.layout s.fb p.index = some (r, g, b)) :
    exec (.rdpix ci cj ck) s = .next (s.drivePixel r g b) :=
  exec_rdpix_next.2 ⟨p, r, g, b, hc, hled, rfl⟩

/-- Settles O40: the writes complete and leave each LED its history, which shows nothing of the framebuffer before
them because every LED is written. -/
theorem wholeFrameRoundTrip : Obligations.WholeFrameRoundTrip := by
  intro is s his hall
  obtain ⟨t, ht⟩ := execAll_completes_of_isPixelWrite his s
  refine ⟨t, ht, fun ci cj ck p hc => ?_⟩
  obtain ⟨⟨r, g, b⟩, hcol⟩ := Option.isSome_iff_exists.1 (hall p)
  have hled := (readLed_execAll p ht).trans (colourHistory_eq_some_of_none hcol _)
  exact ⟨r, g, b, hcol, exec_rdpix_drives hc hled⟩

end Sys2Proof.Machine
end

section
/-! PROOF. R131 to R136: the two reads, where they drive a value, where they fault and where they are refused. -/

namespace Sys2Proof.Machine

/-! ## RDBYTE -/

/-- Settles O25: a byte is whole exactly where both its nibbles are defined. -/
theorem rdbyteDrivesTheByte : Obligations.RdbyteDrivesTheByte := by
  refine fun ca s ha => ⟨fun hi lo hhi hlo => ?_, fun hnone => ?_⟩
  · have hbyte := Memory.readByte_eq_some.2 ⟨hi, lo, hhi, hlo, rfl⟩
    exact exec_rdbyte_next.2 ⟨ha, _, hbyte, rfl⟩
  · exact exec_rdbyte_fault ha (Memory.readByte_eq_none.2 hnone)

/-- There is no byte at an address above 95 (R77). -/
theorem byteAddress_eq_none {ca : BitVec 7} (ha : 95 < ca.toNat) : byteAddress ca = none :=
  if_neg (Nat.not_le.2 ha)

/-- Settles O26: the address is tested before the framebuffer is read. -/
theorem rdbyteRefusesAbove95 : Obligations.RdbyteRefusesAbove95 := by
  intro ca s ha
  simp only [exec, execRdbyte, byteAddress_eq_none ha]

/-! ## RDPIX -/

/-- The even LED of a pair reads the first byte of the group and the high nibble of the second (R45). -/
theorem readLed_of_readByte_even {m : Memory} {p : LedCoord} (heven : p.odd = false) {b0 b1 : Byte}
    (h0 : Memory.readByte m p.groupBase = some b0) (h1 : Memory.readByte m (p.groupBase + 1) = some b1) :
    Memory.readLed Config.layout m p.index = some (hiNibble b0, loNibble b0, hiNibble b1) := by
  obtain ⟨hred, hgreen⟩ := Memory.nib_of_readByte h0
  obtain ⟨hblue, -⟩ := Memory.nib_of_readByte h1
  have hbase := p.groupBase_eq
  have hpar := mt p.odd_iff.2 (Bool.eq_false_iff.1 heven)
  rw [show 2 * p.groupBase = 3 * p.index by omega] at hred hgreen
  rw [show 2 * (p.groupBase + 1) = 3 * p.index + 2 by omega] at hblue
  exact readLed_config_eq_some.2 ⟨hred, hgreen, hblue⟩

/-- The odd LED of a pair reads the low nibble of the second byte of the group and the third byte (R45). -/
theorem readLed_of_readByte_odd {m : Memory} {p : LedCoord} (hodd : p.odd = true) {b1 b2 : Byte}
    (h1 : Memory.readByte m (p.groupBase + 1) = some b1) (h2 : Memory.readByte m (p.groupBase + 2) = some b2) :
    Memory.readLed Config.layout m p.index = some (loNibble b1, hiNibble b2, loNibble b2) := by
  obtain ⟨-, hred⟩ := Memory.nib_of_readByte h1
  obtain ⟨hgreen, hblue⟩ := Memory.nib_of_readByte h2
  have hbase := p.groupBase_eq
  have hpar := p.odd_iff.1 hodd
  rw [show 2 * (p.groupBase + 1) + 1 = 3 * p.index by omega] at hred
  rw [show 2 * (p.groupBase + 2) = 3 * p.index + 1 by omega] at hgreen hblue
  exact readLed_config_eq_some.2 ⟨hred, hgreen, hblue⟩

/-- Settles O27: a LED is whole exactly where its three nibbles are defined, and those are the halves of its own two
bytes. -/
theorem rdpixDrivesTheLed : Obligations.RdpixDrivesTheLed := by
  intro ci cj ck s p hc
  refine ⟨fun r g b hr hg hb => ?_, fun hnone => ?_, fun heven b0 b1 h0 h1 => ?_, fun hodd b1 b2 h1 h2 => ?_⟩
  · exact exec_rdpix_drives hc (readLed_config_eq_some.2 ⟨hr, hg, hb⟩)
  · exact exec_rdpix_fault hc (readLed_config_eq_none.2 hnone)
  · exact exec_rdpix_drives hc (readLed_of_readByte_even heven h0 h1)
  · exact exec_rdpix_drives hc (readLed_of_readByte_odd hodd h1 h2)

/-- Settles O28: a component out of range leaves no LED to read. -/
theorem rdpixRefusesOutOfRange : Obligations.RdpixRefusesOutOfRange := fun _ _ _ s h =>
  readPixel_none (coordinate_eq_none_of_outOfRange h) s

end Sys2Proof.Machine
end

section
/-! PROOF. R180: the framebuffer after reset. -/

namespace Sys2Proof.Machine

/-- A framebuffer that lists nothing has no defined nibble (R24, log 1). -/
@[simp] theorem Memory.nib_nil (q : Nat) : Memory.nib [] q = none := rfl

/-- Reset lists no nibble (R180). -/
@[simp] theorem State.reset_fb : State.reset.fb = [] := rfl

/-- Settles O1: the framebuffer after reset lists no nibble, and an unlisted nibble is undefined. -/
theorem resetLeavesEveryNibbleUndefined : Obligations.ResetLeavesEveryNibbleUndefined := by
  intro q _
  rw [State.reset_fb, Memory.nib_nil]

end Sys2Proof.Machine
end

section
/-! PROOF. R70 to R73: the decoder and the encoder, by fields and by the number on the port. -/

namespace Sys2Proof.Machine

/-! ## The remaining rows of the opcode map -/

theorem decode_eq_clear {c : Command} (h : c.op = 0b001#3) : decode c = .clear := by
  simp only [decode, h]

theorem decode_eq_rdbyte {c : Command} (h : c.op = 0b011#3) : decode c = .rdbyte c.ca := by
  simp only [decode, h]

theorem decode_eq_rdpix {c : Command} (h : c.op = 0b100#3) : decode c = .rdpix c.ci c.cj c.ck := by
  simp only [decode, h]

/-- The eight rows are all there are (R73). -/
theorem op_cases (op : BitVec 3) :
    op = 0b000#3 ∨ op = 0b001#3 ∨ op = 0b010#3 ∨ op = 0b011#3 ∨ op = 0b100#3 ∨ op = 0b101#3 ∨ op = 0b110#3 ∨
      op = 0b111#3 := by
  revert op
  decide

/-! ## By fields -/

theorem decode_encode (i : Instr) : decode (encode i) = i := by
  cases i <;> rfl

/-- Decoding loses exactly the fields that the row's format ignores (R71, R72). -/
theorem encode_decode (c : Command) : encode (decode c) = c.masked (decode c).format := by
  obtain h | h | h | h | h | h | h | h := op_cases c.op
  · rw [decode_eq_nop h, encode, Instr.format, Command.masked, h]
  · rw [decode_eq_clear h, encode, Instr.format, Command.masked, h]
  · rw [decode_eq_wrpix h, encode, Instr.format, Command.masked, h]
  · rw [decode_eq_rdbyte h, encode, Instr.format, Command.masked, h]
  · rw [decode_eq_rdpix h, encode, Instr.format, Command.masked, h]
  · rw [decode_eq_reserved101 h, encode, Instr.format, Command.masked, h]
  · rw [decode_eq_reserved110 h, encode, Instr.format, Command.masked, h]
  · rw [decode_eq_reserved111 h, encode, Instr.format, Command.masked, h]

/-! ## By the number on the port -/

/-- The lowest field of a number, read back. -/
theorem ofNat_toNat_add_mul {n : Nat} (x : BitVec n) (y : Nat) : BitVec.ofNat n (x.toNat + 2 ^ n * y) = x :=
  BitVec.eq_of_toNat_eq (by rw [BitVec.toNat_ofNat, Nat.add_mul_mod_self_left, Nat.mod_eq_of_lt x.isLt])

/-- The fields above the lowest one, read back. -/
theorem toNat_add_mul_shiftRight {n : Nat} (x : BitVec n) (y : Nat) : (x.toNat + 2 ^ n * y) >>> n = y := by
  rw [Nat.shiftRight_eq_div_pow, Nat.add_mul_div_left _ _ (Nat.two_pow_pos n), Nat.div_eq_of_lt x.isLt, Nat.zero_add]

/-- A field put below a number is bounded by the widths of both. -/
theorem toNat_add_mul_lt {n k y : Nat} (x : BitVec n) (hy : y < 2 ^ k) : x.toNat + 2 ^ n * y < 2 ^ (n + k) := by
  calc x.toNat + 2 ^ n * y
    _ < 2 ^ n + 2 ^ n * y := Nat.add_lt_add_right x.isLt _
    _ = 2 ^ n * (y + 1) := by ring
    _ ≤ 2 ^ n * 2 ^ k := Nat.mul_le_mul_left _ hy
    _ = 2 ^ (n + k) := (Nat.pow_add 2 n k).symm

/-- The port's fields taken off a number one after another. -/
theorem ofBits_eq (w : Nat) :
    Command.ofBits w =
      { op := BitVec.ofNat 3 w
        ci := BitVec.ofNat 32 (w >>> 3)
        cj := BitVec.ofNat 32 (w >>> 3 >>> 32)
        ck := BitVec.ofNat 32 (w >>> 3 >>> 32 >>> 32)
        cr := BitVec.ofNat 8 (w >>> 3 >>> 32 >>> 32 >>> 32)
        cg := BitVec.ofNat 8 (w >>> 3 >>> 32 >>> 32 >>> 32 >>> 8)
        cb := BitVec.ofNat 8 (w >>> 3 >>> 32 >>> 32 >>> 32 >>> 8 >>> 8)
        ca := BitVec.ofNat 7 (w >>> 3 >>> 32 >>> 32 >>> 32 >>> 8 >>> 8 >>> 8) } := by
  simp only [← Nat.shiftRight_add]
  rfl

theorem ofBits_toBits (c : Command) : Command.ofBits c.toBits = c := by
  simp only [ofBits_eq, Command.toBits, toNat_add_mul_shiftRight, ofNat_toNat_add_mul, BitVec.ofNat_toNat,
    BitVec.setWidth_eq]

theorem toBits_lt (c : Command) : c.toBits < 2 ^ portBits :=
  toNat_add_mul_lt c.op <| toNat_add_mul_lt c.ci <| toNat_add_mul_lt c.cj <| toNat_add_mul_lt c.ck <|
    toNat_add_mul_lt c.cr <| toNat_add_mul_lt c.cg <| toNat_add_mul_lt c.cb c.ca.isLt

/-- A number is its lowest `n` bits below the rest. -/
theorem ofNat_toNat_add_mul_shiftRight (n w : Nat) : (BitVec.ofNat n w).toNat + 2 ^ n * (w >>> n) = w := by
  rw [BitVec.toNat_ofNat, Nat.shiftRight_eq_div_pow, Nat.mod_add_div]

/-- Below the limit nothing stands above the last field, so the fields make up the number again. -/
theorem toBits_ofBits {w : Nat} (hw : w < 2 ^ portBits) : (Command.ofBits w).toBits = w := by
  have hrest : w >>> 3 >>> 32 >>> 32 >>> 32 >>> 8 >>> 8 >>> 8 < 2 ^ 7 := by
    simp only [← Nat.shiftRight_add]
    rw [Nat.shiftRight_eq_div_pow]
    exact Nat.div_lt_of_lt_mul hw
  have hlast := (BitVec.toNat_ofNat (w := 7) _).trans (Nat.mod_eq_of_lt hrest)
  simp only [ofBits_eq, Command.toBits, hlast, ofNat_toNat_add_mul_shiftRight]

/-- What the decoder answers on a number, said once. -/
theorem decodeWord_eq_ok {w : Nat} {i : Instr} :
    decodeWord w = .ok i ↔ w < 2 ^ portBits ∧ decode (Command.ofBits w) = i := by
  unfold decodeWord
  split <;> simp_all

theorem decodeWord_of_le {w : Nat} (hw : 2 ^ portBits ≤ w) : decodeWord w = .error .noSuchPortBit :=
  if_neg (Nat.not_lt.2 hw)

theorem decodeWord_encodeWord (i : Instr) : decodeWord (encodeWord i) = .ok i :=
  decodeWord_eq_ok.2 ⟨toBits_lt _, by rw [encodeWord, ofBits_toBits, decode_encode]⟩

/-- What the decoder answers on a word of the table, said once. -/
theorem decodeTableWord_eq_some {nbits w : Nat} {i : Instr} :
    decodeTableWord nbits w = some i ↔ decodeWord (w % 2 ^ nbits) = .ok i := by
  unfold decodeTableWord
  cases decodeWord (w % 2 ^ nbits) <;> simp

/-- Settles O34: by fields on every row of the map, and by number because the fields read back from their number. -/
theorem encodeAndDecodeAgree : Obligations.EncodeAndDecodeAgree := by
  refine ⟨fun i => ⟨decode_encode i, toBits_lt _, decodeWord_encodeWord i, ?_⟩, encode_decode⟩
  have hmod : encodeWord i % 2 ^ 136 = encodeWord i := by
    have : (2 : Nat) ^ portBits ≤ 2 ^ 136 := by decide
    exact Nat.mod_eq_of_lt ((toBits_lt _).trans_le this)
  rw [decodeTableWord_eq_some, hmod, decodeWord_encodeWord]

/-- Settles O35: each field is taken off a number and put back as remainder and quotient. -/
theorem portBitsCarryEveryField : Obligations.PortBitsCarryEveryField :=
  ⟨fun c => ⟨ofBits_toBits c, toBits_lt c⟩, fun _ => toBits_ofBits, fun _ => decodeWord_of_le⟩

/-- Settles O36: the opcode map at eight written-out inputs. -/
theorem writtenOutCommandsDecode : Obligations.WrittenOutCommandsDecode := by
  refine ⟨decode_eq_nop rfl, decode_eq_clear rfl, decode_eq_wrpix rfl, decode_eq_rdbyte rfl, decode_eq_rdpix rfl, ?_⟩
  simp only [decodeTableWord_eq_some]
  exact ⟨rfl, rfl, rfl⟩

end Sys2Proof.Machine
end

section
/-! PROOF. The invariant of the state: every update of a transaction meets it, so reset and every step do. -/

namespace Sys2Proof.Machine

/-! ## The updates -/

/-- Where nothing is driven and nothing handed the invariant is the canonical form alone. -/
theorem State.inv_of_drivesNothing {t : State} (hm : Memory.wf t.fb = true) (ht : t.DrivesNothing) : t.Inv := by
  obtain ⟨hbyte, hr, hg, hb, hhanded⟩ := ht
  exact ⟨hm, by simp [hr, hg, hb], by simp [hbyte, hr], by simp [hhanded]⟩

theorem State.drivesNothing_undriven (s : State) : s.undriven.DrivesNothing := ⟨rfl, rfl, rfl, rfl, rfl⟩

theorem State.inv_driveByte {s : State} (hm : Memory.wf s.fb = true) (v : Byte) : (s.driveByte v).Inv :=
  ⟨hm, by simp, by simp, by simp⟩

theorem State.inv_drivePixel {s : State} (hm : Memory.wf s.fb = true) (r g b : Nibble) : (s.drivePixel r g b).Inv :=
  ⟨hm, by simp, by simp, by simp⟩

theorem State.inv_handFrame {s : State} (hm : Memory.wf s.fb = true) {f : List Byte}
    (hf : Memory.frame s.fb = some f) : (s.handFrame f).Inv := by
  refine ⟨hm, by simp, by simp, fun f' hf' => ?_⟩
  cases hf'
  exact Memory.bytesFrom_length hf

/-! ## Reset and the steps -/

/-- Settles O3: the empty framebuffer is canonical, and reset drives, hands and holds nothing. -/
theorem resetMeetsTheInvariant : Obligations.ResetMeetsTheInvariant :=
  have hnothing : State.reset.DrivesNothing := ⟨rfl, rfl, rfl, rfl, rfl⟩
  ⟨State.inv_of_drivesNothing rfl hnothing, hnothing, rfl⟩

/-- A command leaves the invariant behind whatever stood on the ports before it. -/
theorem inv_exec {i : Instr} {s t : State} (hm : Memory.wf s.fb = true) (h : exec i s = .next t) : t.Inv := by
  obtain ⟨-, rfl⟩ | ⟨-, rfl⟩ | ⟨ci, cj, ck, cr, cg, cb, -, rfl⟩ | ⟨ca, v, -, -, -, rfl⟩ |
    ⟨ci, cj, ck, p, r, g, b, -, -, -, rfl⟩ := exec_next_cases h
  · exact State.inv_of_drivesNothing hm s.drivesNothing_undriven
  · exact State.inv_of_drivesNothing Memory.wf_zeroed (s.drivesNothing_withFb _)
  · exact State.inv_of_drivesNothing (wf_writePixel config_layout_meetsSource ci cj ck cr cg cb hm)
      (s.drivesNothing_withFb _)
  · exact State.inv_driveByte hm v
  · exact State.inv_drivePixel hm r g b

/-- Settles O4: by the three things a step can do, no event, a command or a handoff. -/
theorem everyStepKeepsTheInvariant : Obligations.EveryStepKeepsTheInvariant := by
  intro s t hs h
  obtain ⟨-, rfl⟩ | ⟨c, es, -, hexec⟩ | ⟨es, f, -, hf, rfl⟩ := step_next_cases h
  · exact hs
  · exact inv_exec (s := s.withHost es) hs.fbCanonical hexec
  · exact State.inv_handFrame (s := s.withHost es) hs.fbCanonical hf

/-! ## Definedness -/

/-- Every command that writes a nibble writes a value (R24). -/
theorem isSome_nibbleAfter (q : Nat) {old : Option Nibble} (hold : old.isSome = true) (i : Instr) :
    (nibbleAfter q old i).isSome = true := by
  cases i
  case clear => rfl
  case wrpix ci cj ck cr cg cb =>
    cases hc : coordinate ci cj ck with
    | none => simpa [nibbleAfter, hc]
    | some p =>
      simp only [nibbleAfter, hc]
      split_ifs
      exacts [rfl, rfl, rfl, hold]
  all_goals exact hold

theorem isSome_nib_exec {i : Instr} {s t : State} (h : exec i s = .next t) {q : Nat} (hq : q < 192)
    (hs : (Memory.nib s.fb q).isSome = true) : (Memory.nib t.fb q).isSome = true := by
  rw [nib_exec h hq]
  exact isSome_nibbleAfter q hs i

/-- Settles O5: of the three things a step can do only a command writes, and a command writes values alone. -/
theorem definedNibblesStayDefined : Obligations.DefinedNibblesStayDefined := by
  intro s t q hq h hs
  obtain ⟨-, rfl⟩ | ⟨c, es, -, hexec⟩ | ⟨es, f, -, -, rfl⟩ := step_next_cases h
  · exact hs
  · exact isSome_nib_exec (s := s.withHost es) hexec hq hs
  · exact hs

end Sys2Proof.Machine
end

section
/-! PROOF. R23, R70 and R72: what a command writes, what it drives, and what it sees of the state and of the port. -/

namespace Sys2Proof.Machine

/-- Settles O30: the other three commands keep the framebuffer, and so does a WRPIX of no LED. -/
theorem onlyClearAndWrpixWriteTheFrame : Obligations.OnlyClearAndWrpixWriteTheFrame := by
  intro i s t h hne
  obtain ⟨-, rfl⟩ | ⟨hi, -⟩ | ⟨ci, cj, ck, cr, cg, cb, hi, rfl⟩ | ⟨_, _, -, -, -, rfl⟩ |
    ⟨_, _, _, _, _, _, _, -, -, -, rfl⟩ := exec_next_cases h
  case inr.inl => exact .inl hi
  case inr.inr.inl =>
    cases hc : coordinate ci cj ck with
    | none => exact absurd (writePixel_none hc cr cg cb s.fb) hne
    | some p => exact .inr ⟨ci, cj, ck, cr, cg, cb, p, hi, hc⟩
  all_goals exact absurd rfl hne

/-! ## The response port -/

theorem hostReadByte_of_none {t : State} (h : t.rspByte = none) : hostReadByte t = .refused .responseNotDriven := by
  simp only [hostReadByte, h]

theorem hostReadPixel_of_none {t : State} (h : t.rspR = none) : hostReadPixel t = .refused .responseNotDriven := by
  simp only [hostReadPixel, h]

/-- Settles O31: by the five commands that complete; only the two reads drive a field, each its own. -/
theorem responsesAreDrivenByTheirOwnCommand : Obligations.ResponsesAreDrivenByTheirOwnCommand := by
  intro i s t h
  obtain ⟨rfl, rfl⟩ | ⟨rfl, rfl⟩ | ⟨ci, cj, ck, cr, cg, cb, rfl, rfl⟩ | ⟨ca, v, rfl, -, -, rfl⟩ |
    ⟨ci, cj, ck, p, r, g, b, rfl, -, -, rfl⟩ := exec_next_cases h
  case inr.inr.inr.inl =>
    refine ⟨by simp, by simp, by simp, by simp, fun hne => absurd rfl (hne ca), fun _ => ?_, rfl, rfl⟩
    exact hostReadPixel_of_none rfl
  case inr.inr.inr.inr =>
    refine ⟨by simp, by simp, by simp, by simp, fun _ => ?_, fun hne => absurd rfl (hne ci cj ck), rfl, rfl⟩
    exact hostReadByte_of_none rfl
  all_goals
    exact ⟨by simp, by simp, by simp, by simp, fun _ => hostReadByte_of_none rfl, fun _ => hostReadPixel_of_none rfl,
      rfl, rfl⟩

/-! ## What a command sees of the port -/

/-- The format of a command is in its `op` (R73). -/
theorem format_decode_congr {c c' : Command} (h : c.op = c'.op) : (decode c).format = (decode c').format := by
  simp only [decode, h]
  split <;> rfl

theorem masked_op (c : Command) (f : Format) : (c.masked f).op = c.op := by
  cases f <;> rfl

/-- A command and the same with its ignored fields at 0 decode alike (R72). -/
theorem decode_masked (c : Command) : decode (c.masked (decode c).format) = decode c := by
  rw [← encode_decode, decode_encode]

/-- Two commands with the same `op` and the same fields of its format decode alike (R72). -/
theorem decode_eq_of_masked_eq {c c' : Command} (h : c.masked (decode c).format = c'.masked (decode c).format) :
    decode c' = decode c := by
  have hop : c.op = c'.op := by rw [← masked_op c (decode c).format, h, masked_op]
  rw [← decode_masked c', ← format_decode_congr hop, ← h, decode_masked]

/-! ## What a command sees of the state -/

/-- An outcome with what the host does next replaced, where it has a next state. -/
def withHostNext (es : List HostEvent) : Result → Result
  | .next t => .next (t.withHost es)
  | .fault r => .fault r
  | .refused r => .refused r

/-- No command sees what the host does next. -/
theorem exec_withHost (i : Instr) (s : State) (es : List HostEvent) :
    exec i (s.withHost es) = withHostNext es (exec i s) := by
  cases i
  case rdbyte ca =>
    simp only [exec, execRdbyte, State.withHost_fb]
    cases byteAddress ca with
    | none => rfl
    | some a =>
      dsimp only
      cases Memory.readByte s.fb a <;> rfl
  case rdpix ci cj ck =>
    simp only [exec, execRdpix, readPixel, State.withHost_fb]
    cases coordinate ci cj ck with
    | none => rfl
    | some p =>
      dsimp only
      cases Memory.readLed Config.layout s.fb p.index <;> rfl
  all_goals rfl

/-- Two states with the same framebuffer differ in their ports and in what the host does next alone. -/
theorem undriven_eq_of_fb_eq {s s' : State} (h : s.fb = s'.fb) : s'.undriven = s.undriven.withHost s'.host := by
  simp only [State.undriven, State.withHost, h]

/-- Two states with the same framebuffer give a command the same outcome, but for what the host does next. -/
theorem exec_eq_of_fb_eq (i : Instr) {s s' : State} (h : s.fb = s'.fb) :
    exec i s' = withHostNext s'.host (exec i s) := by
  rw [← exec_undriven i s', undriven_eq_of_fb_eq h, exec_withHost, exec_undriven]

/-- Settles O32: a command sees the fields of its format and the framebuffer. -/
theorem onlyTheFrameCarriesOver : Obligations.OnlyTheFrameCarriesOver := by
  refine ⟨fun c c' h => decode_eq_of_masked_eq h, fun i s s' hfb => ?_⟩
  rw [exec_eq_of_fb_eq i hfb]
  refine ⟨fun t h => ?_, fun r h => ?_, fun r h => ?_⟩ <;> rw [h] <;> rfl

end Sys2Proof.Machine
end

section
/-! PROOF. R12, R154 and R165: the machine's steps on the host's list, and how a stop ends them. -/

namespace Sys2Proof.Machine

/-! ## One step -/

theorem step_of_command {s : State} {c : Command} {es : List HostEvent} (h : s.host = .command c :: es) :
    step s = exec (decode c) (s.withHost es) := by
  simp only [step, hostStep, h, perform]

theorem step_of_handoff {s : State} {es : List HostEvent} (h : s.host = .handoff :: es) :
    step s = handoff (s.withHost es) := by
  simp only [step, hostStep, h, perform]

theorem step_of_idle {s : State} (h : s.host = []) : step s = .next s := by
  simp only [step, hostStep, h]

/-- A command the host issues is the next one run, with the host's list as it was. -/
theorem step_issue (s : State) (c : Command) : step (s.issue c) = exec (decode c) s := step_of_command rfl

/-- Settles O33: by the head of the host's list; a fetch word is a command put at its head. -/
theorem stepRunsTheDecodedCommand : Obligations.StepRunsTheDecodedCommand := by
  refine ⟨fun s c es => step_of_command, fun s es => step_of_handoff, fun s => step_of_idle,
    fun s nbits w i h => ?_⟩
  obtain ⟨-, hi⟩ := decodeWord_eq_ok.1 (decodeTableWord_eq_some.1 h)
  rw [State.withFetchWord, step_issue, hi]

/-! ## A list of commands -/

/-- A step on a pending encoding is its command, which sees nothing of what is pending after it. -/
theorem step_pending_encode (i : Instr) (s : State) (es : List HostEvent) :
    step (s.withHost (.command (encode i) :: es)) = withHostNext es (exec i s) := by
  rw [step_of_command rfl, decode_encode, State.withHost_withHost, exec_withHost]

/-- Settles O43: by induction on the commands, each of which sees neither the pending list nor the events after it. -/
theorem machineRunIsTheCommandList : Obligations.MachineRunIsTheCommandList := by
  intro is s es
  induction is generalizing s with
  | nil => rfl
  | cons i is ih =>
    change core.run (is.length + 1) (s.withHost (.command (encode i) :: _)) = execAll (i :: is) (s.withHost es)
    rw [core_run_succ, step_pending_encode, execAll, exec_withHost]
    cases exec i s with
    | next t => exact ih t
    | fault r => rfl
    | refused r => rfl

/-- Two lists of commands one after the other: the second runs from where the first leaves, unless that stops. -/
theorem execAll_append (is js : List Instr) (s : State) :
    execAll (is ++ js) s =
      match execAll is s with
      | .next t => execAll js t
      | .fault r => .fault r
      | .refused r => .refused r := by
  induction is generalizing s with
  | nil => rfl
  | cons i is ih =>
    simp only [List.cons_append, execAll]
    cases exec i s with
    | next t => exact ih t
    | fault r => rfl
    | refused r => rfl

/-- Settles O38: a run and a list of commands go on from a next state only. -/
theorem aStopEndsTheRun : Obligations.AStopEndsTheRun := by
  refine ⟨fun s r n h => ?_, fun s r n h => ?_, fun is js s r h => ?_, fun is js s r h => ?_⟩
  · rw [core_run_succ, h]
  · rw [core_run_succ, h]
  · rw [execAll_append, h]
  · rw [execAll_append, h]

end Sys2Proof.Machine
end

section
/-! PROOF. R48, R53, R154: the frame of a framebuffer, whole or with an undefined byte. -/

namespace Sys2Proof.Machine

/-! ## Whole framebuffers -/

theorem Memory.exists_nib_of_allDefined {m : Memory} (hm : Memory.AllDefined m) {q : Nat} (hq : q < 192) :
    ∃ v, Memory.nib m q = some v := Option.isSome_iff_exists.1 (hm q hq)

theorem Memory.isSome_readByte {m : Memory} (hm : Memory.AllDefined m) {a : Nat} (ha : a < 96) :
    (Memory.readByte m a).isSome = true := by
  obtain ⟨hi, hhi⟩ := Memory.exists_nib_of_allDefined hm (q := 2 * a) (by omega)
  obtain ⟨lo, hlo⟩ := Memory.exists_nib_of_allDefined hm (q := 2 * a + 1) (by omega)
  exact Option.isSome_iff_exists.2 ⟨_, Memory.readByte_eq_some.2 ⟨hi, lo, hhi, hlo, rfl⟩⟩

/-- A whole framebuffer has a frame, its bytes in address order (R48). -/
theorem Memory.frame_of_allDefined {m : Memory} (hm : Memory.AllDefined m) :
    ∃ f, Memory.frame m = some f ∧ f.length = 96 ∧ ∀ a, a < 96 → f[a]? = Memory.readByte m a := by
  obtain ⟨f, hf, hlen, hbytes⟩ := Memory.bytesFrom_eq_some m 0 96 fun a _ ha => Memory.isSome_readByte hm (by omega)
  exact ⟨f, hf, hlen, fun a ha => by rw [hbytes a ha, Nat.zero_add]⟩

/-- What a stretch of bytes answers, said once for its first byte. -/
theorem Memory.bytesFrom_succ_eq_some {m : Memory} {a k : Nat} {f : List Byte} :
    Memory.bytesFrom m a (k + 1) = some f ↔
      ∃ v g, Memory.readByte m a = some v ∧ Memory.bytesFrom m (a + 1) k = some g ∧ f = v :: g := by
  rw [Memory.bytesFrom]
  cases Memory.readByte m a <;> cases Memory.bytesFrom m (a + 1) k <;> simp [eq_comm]

theorem frameOutcome_of_some {m : Memory} {f : List Byte} (h : Memory.frame m = some f) :
    frameOutcome m = .next f := by
  simp only [frameOutcome, h]

/-- A handoff of a framebuffer that is not whole faults with its lowest undefined byte (R154). -/
theorem handoff_fault {s : State} {a : Nat} (ha : a < 96) (hnone : Memory.readByte s.fb a = none)
    (hbelow : ∀ b, b < a → (Memory.readByte s.fb b).isSome = true) :
    handoff s = .fault (.uninitialisedFrame a) := by
  obtain ⟨hframe, hfirst⟩ := Memory.bytesFrom_eq_none s.fb 0 96 a hnone (Nat.zero_le a) (by omega)
    fun c _ hc => hbelow c hc
  simp only [handoff, frameOutcome, Memory.frame, hframe, hfirst]

/-- Settles O37: by whether every byte is whole. -/
theorem handoffGivesTheFrame : Obligations.HandoffGivesTheFrame := by
  refine fun s => ⟨fun hs => ?_, fun a => handoff_fault⟩
  obtain ⟨f, hf, hlen, hbytes⟩ := Memory.frame_of_allDefined hs
  exact ⟨f, handoff_next.2 ⟨f, hf, rfl⟩, hlen, hbytes⟩

/-- Settles O2: after reset no nibble is listed, so each read and byte 0 of the handoff meet an undefined one. -/
theorem readsRightAfterResetFault : Obligations.ReadsRightAfterResetFault :=
  ⟨fun _ ha => exec_rdbyte_fault ha rfl, fun _ _ _ _ hc => exec_rdpix_fault hc rfl,
    handoff_fault (by decide) rfl fun _ hb => absurd hb (Nat.not_lt_zero _)⟩

end Sys2Proof.Machine
end

section
/-! PROOF. R182, R185, R190: from a whole framebuffer every run that keeps the host's duties completes and is observed. -/

namespace Sys2Proof.Machine

/-! ## What a run shows -/

theorem observe_nil {s : State} {f : List Byte} (h : Memory.frame s.fb = some f) :
    observe [] s = .next { frame := f, responses := [] } := by
  simp only [observe, frameOutcome_of_some h]

/-- The observation of a first command and of the rest make up the observation of both. -/
theorem observe_cons {i : Instr} {is : List Instr} {s t : State} {o : Observation} (hi : exec i s = .next t)
    (ho : observe is t = .next o) :
    observe (i :: is) s = .next { o with responses := t.driven ++ o.responses } := by
  simp only [observe, hi, ho]

@[simp] theorem State.driven_undriven (s : State) : s.undriven.driven = [] := rfl
@[simp] theorem State.driven_withFb (s : State) (m : Memory) : (s.withFb m).driven = [] := rfl
@[simp] theorem State.driven_driveByte (s : State) (v : Byte) : (s.driveByte v).driven = [.byte v] := rfl
@[simp] theorem State.driven_drivePixel (s : State) (r g b : Nibble) :
    (s.drivePixel r g b).driven = [.pixel r g b] := rfl

/-- A read drives one response and no other command drives any (R70). -/
theorem length_driven_exec {i : Instr} {s t : State} (h : exec i s = .next t) :
    t.driven.length = if i.isRead then 1 else 0 := by
  obtain ⟨rfl, rfl⟩ | ⟨rfl, rfl⟩ | ⟨_, _, _, _, _, _, rfl, rfl⟩ | ⟨_, _, rfl, -, -, rfl⟩ |
    ⟨_, _, _, _, _, _, _, rfl, -, -, rfl⟩ := exec_next_cases h <;> rfl

/-! ## Whole framebuffers stay whole, and on them legal commands complete -/

theorem Memory.allDefined_zeroed : Memory.AllDefined Memory.zeroed := fun q hq => by
  rw [Memory.nib_zeroed_of_lt hq]
  rfl

theorem allDefined_exec {i : Instr} {s t : State} (h : exec i s = .next t) (hs : Memory.AllDefined s.fb) :
    Memory.AllDefined t.fb := fun q hq => isSome_nib_exec h hq (hs q hq)

/-- A whole framebuffer has every LED's colour. -/
theorem exists_readLed_of_allDefined {m : Memory} (hm : Memory.AllDefined m) {n : Nat} (hn : n < 64) :
    ∃ r g b, Memory.readLed Config.layout m n = some (r, g, b) := by
  obtain ⟨r, hr⟩ := Memory.exists_nib_of_allDefined hm (q := 3 * n) (by omega)
  obtain ⟨g, hg⟩ := Memory.exists_nib_of_allDefined hm (q := 3 * n + 1) (by omega)
  obtain ⟨b, hb⟩ := Memory.exists_nib_of_allDefined hm (q := 3 * n + 2) (by omega)
  exact ⟨r, g, b, readLed_config_eq_some.2 ⟨hr, hg, hb⟩⟩

/-- The host's duty on a coordinate (R185) is the block's own test of its upper bits (R10). -/
theorem inRange_of_coordOk {c : Coord} (h : Instr.coordOk c = true) : inRange c = true := by
  simp only [Instr.coordOk, Bool.and_eq_true, decide_eq_true_eq] at h
  exact (inRange_iff_toInt (by decide) c).2 h

theorem exists_coordinate_of_coordOk {ci cj ck : Coord} (hi : Instr.coordOk ci = true) (hj : Instr.coordOk cj = true)
    (hk : Instr.coordOk ck = true) : ∃ p, coordinate ci cj ck = some p :=
  ⟨_, (coordinate_eq_some_iff ci cj ck ⟨_, _, _⟩).2
    ⟨⟨inRange_of_coordOk hi, rfl⟩, ⟨inRange_of_coordOk hj, rfl⟩, inRange_of_coordOk hk, rfl⟩⟩

/-- On a whole framebuffer a command that meets the host's duties does not stop (R185). -/
theorem exec_completes_of_wellFormed {i : Instr} (hi : i.wellFormed = true) {s : State}
    (hs : Memory.AllDefined s.fb) : Completes (exec i s) := by
  cases i with
  | nop => exact ⟨_, exec_nop s⟩
  | clear => exact ⟨_, exec_clear s⟩
  | wrpix ci cj ck cr cg cb => exact ⟨_, exec_wrpix ci cj ck cr cg cb s⟩
  | rdbyte ca =>
    have ha : ca.toNat ≤ 95 := of_decide_eq_true hi
    obtain ⟨v, hv⟩ := Option.isSome_iff_exists.1 (Memory.isSome_readByte hs (Nat.lt_succ_of_le ha))
    exact ⟨_, exec_rdbyte_next.2 ⟨ha, v, hv, rfl⟩⟩
  | rdpix ci cj ck =>
    simp only [Instr.wellFormed, Bool.and_eq_true] at hi
    obtain ⟨⟨hci, hcj⟩, hck⟩ := hi
    obtain ⟨p, hp⟩ := exists_coordinate_of_coordOk hci hcj hck
    obtain ⟨r, g, b, hled⟩ := exists_readLed_of_allDefined hs p.index_lt
    exact ⟨_, exec_rdpix_drives hp hled⟩
  | reserved101 => cases hi
  | reserved110 => cases hi
  | reserved111 => cases hi

/-- From a whole framebuffer every legal run is observed, with a whole frame and one response for each read. -/
theorem observe_of_legalRun {is : List Instr} (his : legalRun is = true) {s : State} (hs : Memory.AllDefined s.fb) :
    ∃ o, observe is s = .next o ∧ o.frame.length = 96 ∧ o.responses.length = is.countP Instr.isRead := by
  induction is generalizing s with
  | nil =>
    obtain ⟨f, hf, hlen, -⟩ := Memory.frame_of_allDefined hs
    exact ⟨_, observe_nil hf, hlen, rfl⟩
  | cons i is ih =>
    obtain ⟨hi, his⟩ := (Bool.and_eq_true _ _).mp his
    obtain ⟨t, ht⟩ := exec_completes_of_wellFormed hi hs
    obtain ⟨o, ho, hlen, hcount⟩ := ih his (allDefined_exec ht hs)
    refine ⟨_, observe_cons ht ho, hlen, ?_⟩
    rw [List.length_append, length_driven_exec ht, hcount, List.countP_cons, Nat.add_comm]

/-- Settles O42: CLEAR leaves a whole framebuffer and drives nothing, and the run goes on from there. -/
theorem legalRunsAfterClearComplete : Obligations.LegalRunsAfterClearComplete := by
  intro is s his
  obtain ⟨o, ho, hlen, hcount⟩ := observe_of_legalRun his (s := s.withFb Memory.zeroed) Memory.allDefined_zeroed
  exact ⟨_, observe_cons (exec_clear s) ho, hlen, hcount⟩

end Sys2Proof.Machine
end

section
/-! PROOF. R79, R80, R183: the frame of a framebuffer is the packing of its LEDs' colours. -/

namespace Sys2Proof.Machine

/-! ## Packing -/

/-- The 24 bits of R80's diagram: the colours of the LEDs `2p` and `2p + 1`. -/
def packPair (col : Nat → Colour) (p : Nat) : List Byte :=
  [joinNibbles (col (2 * p)).1 (col (2 * p)).2.1,
    joinNibbles (col (2 * p)).2.2 (col (2 * p + 1)).1,
    joinNibbles (col (2 * p + 1)).2.1 (col (2 * p + 1)).2.2]

theorem packFrame_eq (col : Nat → Colour) : packFrame col = (List.range 32).flatMap (packPair col) := rfl

/-- The three bytes from `3p` on hold the pair `p`, and a stretch goes on from there. -/
theorem Memory.bytesFrom_pair {m : Memory} {col : Nat → Colour} {p : Nat}
    (heven : Memory.readLed Config.layout m (2 * p) = some (col (2 * p)))
    (hodd : Memory.readLed Config.layout m (2 * p + 1) = some (col (2 * p + 1))) {k : Nat} {f : List Byte}
    (hf : Memory.bytesFrom m (3 * (p + 1)) k = some f) :
    Memory.bytesFrom m (3 * p) (k + 3) = some (packPair col p ++ f) := by
  obtain ⟨h0, h1, h2⟩ := readLed_config_eq_some.1 heven
  obtain ⟨h3, h4, h5⟩ := readLed_config_eq_some.1 hodd
  rw [show 3 * (2 * p) = 2 * (3 * p) by omega] at h0 h1 h2
  rw [show 3 * (2 * p + 1) = 2 * (3 * p) + 3 by omega] at h3 h4 h5
  refine Memory.bytesFrom_succ_eq_some.2 ⟨_, _, Memory.readByte_eq_some.2 ⟨_, _, h0, h1, rfl⟩, ?_, rfl⟩
  refine Memory.bytesFrom_succ_eq_some.2 ⟨_, _, Memory.readByte_eq_some.2 ⟨_, _, h2, h3, rfl⟩, ?_, rfl⟩
  exact Memory.bytesFrom_succ_eq_some.2 ⟨_, _, Memory.readByte_eq_some.2 ⟨_, _, h4, h5, rfl⟩, hf, rfl⟩

/-- Any number of pairs one after another. -/
theorem Memory.bytesFrom_pairs {m : Memory} {col : Nat → Colour} {p k : Nat}
    (h : ∀ n, n < 2 * (p + k) → Memory.readLed Config.layout m n = some (col n)) :
    Memory.bytesFrom m (3 * p) (3 * k) = some ((List.range' p k).flatMap (packPair col)) := by
  induction k generalizing p with
  | zero => rfl
  | succ k ih =>
    have hrest := ih (p := p + 1) fun n hn => h n (by omega)
    rw [List.range'_succ, List.flatMap_cons]
    exact Memory.bytesFrom_pair (h _ (by omega)) (h _ (by omega)) hrest

/-- The frame packs the colours of the 64 LEDs (R79, R80). -/
theorem Memory.frame_eq_packFrame {m : Memory} {col : Nat → Colour}
    (h : ∀ n, n < 64 → Memory.readLed Config.layout m n = some (col n)) :
    Memory.frame m = some (packFrame col) := by
  rw [packFrame_eq, List.range_eq_range']
  exact Memory.bytesFrom_pairs (p := 0) (k := 32) h

/-! ## The lifecycle -/

/-- Pixel writes drive no response, so their observation is the frame they leave. -/
theorem observe_of_isPixelWrite {is : List Instr} (his : is.all Instr.isPixelWrite = true) {s t : State}
    (h : execAll is s = .next t) {f : List Byte} (hf : Memory.frame t.fb = some f) :
    observe is s = .next { frame := f, responses := [] } := by
  induction is generalizing s with
  | nil =>
    cases h
    exact observe_nil hf
  | cons i is ih =>
    obtain ⟨hi, his⟩ := (Bool.and_eq_true _ _).mp his
    obtain ⟨u, hu, ht⟩ := execAll_cons_next.1 h
    rw [observe_cons hu (ih his ht)]
    cases i
    case wrpix => cases hu; rfl
    all_goals cases hi

theorem isSome_colourHistory (p : LedCoord) (is : List Instr) {old : Option Colour} (hold : old.isSome = true) :
    (colourHistory p is old).isSome = true := by
  rw [colourHistory_eq_or, Option.isSome_or, hold, Bool.or_true]

/-- Settles O41: the writes leave in each LED its history from black on, and the frame packs those. -/
theorem lifecycleFrameIsThePackedColours : Obligations.LifecycleFrameIsThePackedColours := by
  intro ws s hws
  obtain ⟨t, ht⟩ := execAll_completes_of_isPixelWrite hws (s.withFb Memory.zeroed)
  have hled : ∀ n, n < 64 → Memory.readLed Config.layout t.fb n =
      some ((colourHistory (ledAt n) ws (some (0, 0, 0))).getD (0, 0, 0)) := by
    intro n hn
    have hlast := readLed_execAll (ledAt n) ht
    rw [index_ledAt hn, State.withFb_fb, readLed_zeroed hn] at hlast
    obtain ⟨c, hc⟩ := Option.isSome_iff_exists.1 (isSome_colourHistory (ledAt n) ws (old := some (0, 0, 0)) rfl)
    rw [hlast, hc, Option.getD_some]
  exact observe_cons (exec_clear s) (observe_of_isPixelWrite hws ht (Memory.frame_eq_packFrame hled))

end Sys2Proof.Machine
end

section
/-! PROOF. R81, R82: the assembler's operand ranges and its pseudo-commands. -/

namespace Sys2Proof.Machine

/-! ## Operands -/

/-- A coordinate is taken exactly where the port's width has its value (R81, D3). -/
theorem asmCoord_eq_ok {v : Int} {c : Coord} : asmCoord v = .ok c ↔ c.toInt = v := by
  unfold asmCoord
  constructor
  · intro h
    split at h
    · next hv =>
      cases h
      exact hv
    · cases h
  · rintro rfl
    rw [BitVec.ofInt_toInt, if_pos rfl]

/-- An unsigned operand in the range of its field is the field's own number. -/
theorem ofInt_eq_iff_toNat_eq {n : Nat} {v : Int} (h0 : 0 ≤ v) (hn : v < 2 ^ n) (x : BitVec n) :
    BitVec.ofInt n v = x ↔ (x.toNat : Int) = v := by
  obtain ⟨k, rfl⟩ := Int.eq_ofNat_of_zero_le h0
  have hk : k < 2 ^ n := by exact_mod_cast hn
  rw [BitVec.toNat_eq, BitVec.ofInt_natCast, BitVec.toNat_ofNat, Nat.mod_eq_of_lt hk]
  omega

/-- An operand tested against the range of its field is taken exactly where the field has its value. -/
theorem unsignedOperand_eq_ok {n : Nat} {v max : Int} (hmax : max + 1 = 2 ^ n) (e : AsmError) (x : BitVec n) :
    (if 0 ≤ v ∧ v ≤ max then .ok (BitVec.ofInt n v) else .error e : Except AsmError (BitVec n)) = .ok x ↔
      (x.toNat : Int) = v := by
  split
  case isTrue h =>
    rw [Except.ok.injEq]
    exact ofInt_eq_iff_toNat_eq h.1 (by omega) x
  case isFalse h =>
    have hx : (x.toNat : Int) < 2 ^ n := by exact_mod_cast x.isLt
    simp only [reduceCtorEq, false_iff]
    omega

theorem asmColour_eq_ok {v : Int} {c : Byte} : asmColour v = .ok c ↔ (c.toNat : Int) = v :=
  unsignedOperand_eq_ok rfl _ c

theorem asmAddress_eq_ok {v : Int} {a : BitVec 7} : asmAddress v = .ok a ↔ (a.toNat : Int) = v :=
  unsignedOperand_eq_ok rfl _ a

/-- The integers that a field of `n` bits holds unsigned. -/
theorem exists_toNat_eq_iff {n : Nat} {v : Int} : (∃ x : BitVec n, (x.toNat : Int) = v) ↔ 0 ≤ v ∧ v < 2 ^ n := by
  constructor
  · rintro ⟨x, rfl⟩
    exact ⟨Int.natCast_nonneg _, by exact_mod_cast x.isLt⟩
  · rintro ⟨h0, hn⟩
    exact ⟨_, (ofInt_eq_iff_toNat_eq h0 hn _).1 rfl⟩

/-- The integers that a coordinate holds in two's complement. -/
theorem exists_coord_toInt_eq_iff {v : Int} : (∃ c : Coord, c.toInt = v) ↔ -2147483648 ≤ v ∧ v ≤ 2147483647 := by
  constructor
  · rintro ⟨c, rfl⟩
    have hlo : -2 ^ 31 ≤ c.toInt := c.le_toInt
    have hhi : c.toInt < 2 ^ 31 := c.toInt_lt
    omega
  · rintro ⟨hlo, hhi⟩
    exact ⟨BitVec.ofInt 32 v, BitVec.toInt_ofInt_eq_self (by decide) hlo (Int.lt_add_one_of_le hhi)⟩

/-- Settles O46: each operand is taken exactly where some field has its value. -/
theorem assemblerTakesOperandsInRange : Obligations.AssemblerTakesOperandsInRange := by
  refine ⟨fun _ _ => asmCoord_eq_ok, fun v => ?_, fun _ _ => asmColour_eq_ok, fun v => ?_, fun _ _ => asmAddress_eq_ok,
    fun v => ?_⟩
  · simp only [asmCoord_eq_ok, exists_coord_toInt_eq_iff]
  · simp only [asmColour_eq_ok, exists_toNat_eq_iff]
    omega
  · simp only [asmAddress_eq_ok, exists_toNat_eq_iff]
    omega

/-! ## Lines and their expansions -/

/-- Operands that are the values of fields assemble to the WRPIX of those fields. -/
theorem asmWrpix_values (ci cj ck : Coord) (cr cg cb : Byte) :
    asmWrpix ci.toInt cj.toInt ck.toInt cr.toNat cg.toNat cb.toNat = .ok (.wrpix ci cj ck cr cg cb) := by
  have hcoord (c : Coord) : asmCoord c.toInt = .ok c := asmCoord_eq_ok.2 rfl
  have hcolour (c : Byte) : asmColour c.toNat = .ok c := asmColour_eq_ok.2 rfl
  simp only [asmWrpix, hcoord, hcolour]
  rfl

/-- An expansion whose commands all assemble assembles to the list of them. -/
theorem mapM_eq_ok {α β : Type} {f : α → Except AsmError β} {g : α → β} {l : List α}
    (h : ∀ x ∈ l, f x = .ok (g x)) : l.mapM f = .ok (l.map g) := by
  induction l with
  | nil => rfl
  | cons x l ih =>
    obtain ⟨hx, hl⟩ := List.forall_mem_cons.1 h
    rw [List.mapM_cons, hx, ih hl]
    rfl

/-! ## RDFRAME -/

/-- Seven bits carry every address of the frame (R77). -/
theorem toNat_address {a : Nat} (ha : a < 96) : (BitVec.ofNat 7 a).toNat = a :=
  Nat.mod_eq_of_lt (ha.trans (by decide))

theorem assemble_rdframe :
    assemble .rdframe = .ok ((List.range 96).map fun a => .rdbyte (BitVec.ofNat 7 a)) := by
  have haddrs : (List.range Config.fbBytes >>= fun a => pure (a : Int)) = (List.range 96).map Nat.cast :=
    List.flatMap_pure_eq_map _ _
  rw [assemble, haddrs, List.mapM_map]
  refine mapM_eq_ok fun a ha => ?_
  have ha : a < 96 := List.mem_range.1 ha
  have hok : asmAddress a = .ok (BitVec.ofNat 7 a) :=
    asmAddress_eq_ok.2 (congrArg Nat.cast (toNat_address ha))
  rw [Function.comp_apply, hok]
  rfl

/-- Reads of a stretch of whole bytes show them in address order beside the frame. -/
theorem observe_rdbytes {a k : Nat} (hk : a + k ≤ 96) {s : State} {f g : List Byte} (hf : Memory.frame s.fb = some f)
    (hg : Memory.bytesFrom s.fb a k = some g) :
    observe ((List.range' a k).map fun a => .rdbyte (BitVec.ofNat 7 a)) s =
      .next { frame := f, responses := g.map Response.byte } := by
  induction k generalizing a s g with
  | zero =>
    cases hg
    exact observe_nil hf
  | succ k ih =>
    obtain ⟨v, vs, hv, hvs, rfl⟩ := Memory.bytesFrom_succ_eq_some.1 hg
    have haddr := toNat_address (a := a) (by omega)
    have hexec : exec (.rdbyte (BitVec.ofNat 7 a)) s = .next (s.driveByte v) :=
      exec_rdbyte_next.2 ⟨by omega, v, by rwa [haddr], rfl⟩
    rw [List.range'_succ, List.map_cons, observe_cons hexec (ih (by omega) hf hvs)]
    rfl

/-- Settles O44: the 96 reads are of the stretch of bytes that the frame is. -/
theorem rdframeReadsTheFrame : Obligations.RdframeReadsTheFrame := by
  refine ⟨_, assemble_rdframe, rfl, fun s hs => ?_⟩
  obtain ⟨f, hf, -⟩ := Memory.frame_of_allDefined hs
  refine ⟨f, hf, ?_⟩
  rw [List.range_eq_range']
  exact observe_rdbytes le_rfl hf hf

/-! ## FILL and BLANK -/

/-- The WRPIX of one of FILL's coordinates (R82). -/
def fillWrite (r g b : Byte) (p : Nat × Nat × Nat) : Instr :=
  .wrpix (BitVec.ofNat 32 p.1) (BitVec.ofNat 32 p.2.1) (BitVec.ofNat 32 p.2.2) r g b

/-- The components of FILL's coordinates are the numbers 0..3 (R82). -/
theorem mem_fillOrder {i j k : Nat} : (i, j, k) ∈ fillOrder ↔ i < 4 ∧ j < 4 ∧ k < 4 := by
  simp only [fillOrder, List.mem_flatMap, List.mem_map, List.mem_range, Prod.mk.injEq]
  constructor
  · rintro ⟨_, hk, _, hi, _, hj, rfl, rfl, rfl⟩
    exact ⟨hi, hj, hk⟩
  · rintro ⟨hi, hj, hk⟩
    exact ⟨k, hk, i, hi, j, hj, rfl, rfl, rfl⟩

theorem toInt_coord_ofNat {n : Nat} (hn : n < 4) : (BitVec.ofNat 32 n).toInt = n := by
  rw [toInt_eq_iff_toNat_eq (by decide) _ hn, BitVec.toNat_ofNat, Nat.mod_eq_of_lt (by omega)]

theorem assemble_fill (r g b : Byte) :
    assemble (.fill r.toNat g.toNat b.toNat) = .ok (fillOrder.map (fillWrite r g b)) := by
  refine mapM_eq_ok fun ⟨i, j, k⟩ hp => ?_
  obtain ⟨hi, hj, hk⟩ := mem_fillOrder.1 hp
  have h := asmWrpix_values (BitVec.ofNat 32 i) (BitVec.ofNat 32 j) (BitVec.ofNat 32 k) r g b
  rwa [toInt_coord_ofNat hi, toInt_coord_ofNat hj, toInt_coord_ofNat hk] at h

/-- Every LED is one of FILL's coordinates. -/
theorem exists_fillOrder_coordinate (p : LedCoord) :
    ∃ x ∈ fillOrder, coordinate (BitVec.ofNat 32 x.1) (BitVec.ofNat 32 x.2.1) (BitVec.ofNat 32 x.2.2) = some p := by
  have hi := p.i.isLt
  have hj := p.j.isLt
  have hk := p.k.isLt
  refine ⟨(p.i.toNat, p.j.toNat, p.k.toNat), mem_fillOrder.2 ⟨hi, hj, hk⟩, ?_⟩
  exact ((coordinateInRangeExactly 32 (by decide)).2 _ _ _ p).2
    ⟨toInt_coord_ofNat hi, toInt_coord_ofNat hj, toInt_coord_ofNat hk⟩

/-- Writes of one colour leave a LED in it where one of them is its own or it had that colour before. -/
theorem colourHistory_fillWrites (p : LedCoord) (r g b : Byte) (xs : List (Nat × Nat × Nat)) {old : Option Colour}
    (h : old = some (quantise r, quantise g, quantise b) ∨ ∃ x ∈ xs,
      coordinate (BitVec.ofNat 32 x.1) (BitVec.ofNat 32 x.2.1) (BitVec.ofNat 32 x.2.2) = some p) :
    colourHistory p (xs.map (fillWrite r g b)) old = some (quantise r, quantise g, quantise b) := by
  induction xs generalizing old with
  | nil => simpa [colourHistory] using h
  | cons x xs ih =>
    refine ih ?_
    rw [fillWrite, colourAfter]
    split
    case isTrue => exact .inl rfl
    case isFalse hx =>
      refine h.imp_right fun ⟨y, hy, hyp⟩ => ?_
      rcases List.mem_cons.1 hy with rfl | hy
      · exact absurd hyp hx
      · exact ⟨y, hy, hyp⟩

theorem all_isPixelWrite_fillWrites (r g b : Byte) (xs : List (Nat × Nat × Nat)) :
    (xs.map (fillWrite r g b)).all Instr.isPixelWrite = true := by
  rw [List.all_map]
  exact List.all_eq_true.2 fun _ _ => rfl

/-- Settles O45: FILL's coordinates are all LEDs, and its writes have one colour. -/
theorem fillColoursEveryLed : Obligations.FillColoursEveryLed := by
  refine ⟨fun r g b => ⟨_, assemble_fill r g b, ?_, fun s => ?_⟩, fun ci cj ck => ?_⟩
  · rw [List.length_map]
    rfl
  · obtain ⟨t, ht⟩ := execAll_completes_of_isPixelWrite (all_isPixelWrite_fillWrites r g b fillOrder) s
    refine ⟨t, ht, fun p => (readLed_execAll p ht).trans ?_⟩
    exact colourHistory_fillWrites p r g b fillOrder (.inr (exists_fillOrder_coordinate p))
  · have h := asmWrpix_values ci cj ck 0 0 0
    rw [assemble, show asmWrpix ci.toInt cj.toInt ck.toInt 0 0 0 = _ from h]
    rfl

end Sys2Proof.Machine
end

section
/-! PROOF. D3, D5, C1 and R106: other coordinate widths, other layouts, and the end addresses. -/

namespace Sys2Proof.Machine

/-! ## Other coordinate widths -/

/-- Three integers that two widths represent are the same coordinate at both, or none (D3). -/
theorem coordinate_ofInt_eq {w w' : Nat} (hw : 3 ≤ w) (hw' : 3 ≤ w') {i j k : Int}
    (h : ∀ z ∈ [i, j, k], (BitVec.ofInt w z).toInt = z ∧ (BitVec.ofInt w' z).toInt = z) :
    coordinate (BitVec.ofInt w i) (BitVec.ofInt w j) (BitVec.ofInt w k) =
      coordinate (BitVec.ofInt w' i) (BitVec.ofInt w' j) (BitVec.ofInt w' k) := by
  obtain ⟨hi, hi'⟩ := h i (by simp)
  obtain ⟨hj, hj'⟩ := h j (by simp)
  obtain ⟨hk, hk'⟩ := h k (by simp)
  refine Option.ext fun p => ?_
  rw [(coordinateInRangeExactly w hw).2, (coordinateInRangeExactly w' hw').2, hi, hj, hk, hi', hj', hk']

/-- Settles O15: the write and the read use their coordinate inputs through the coordinate alone. -/
theorem coordinateWidthDoesNotMatter : Obligations.CoordinateWidthDoesNotMatter := by
  intro w w' L i j k cr cg cb m s hw hw' h
  simp only [writePixel, readPixel, coordinate_ofInt_eq hw hw' h, and_self]

/-! ## Other layouts -/

/-- Settles O21: the written LED reads back and the others share no nibble with it. -/
theorem everyLayoutKeepsTheSourcesPromise : Obligations.EveryLayoutKeepsTheSourcesPromise := by
  intro w L hL ci cj ck cr cg cb m p hc
  rw [writePixel_some hc]
  exact ⟨readLed_writeLed_self hL _ _ _ _ _,
    fun p' hp => readLed_writeLed_ne hL (mt LedCoord.index_inj hp) _ _ _ _⟩

/-- A whole outer byte of the group and one nibble of the middle byte lie in two neighbouring bytes (C1). -/
theorem neighbouring_bytes_of_oneByteAndAHalf {a b c : Nat} (h : Layout.oneByteAndAHalf a b c = true) :
    ∃ d, (d = 0 ∨ d = 1) ∧ ∀ x ∈ [a, b, c], x / 2 = d ∨ x / 2 = d + 1 := by
  simp only [Layout.oneByteAndAHalf, Bool.and_eq_true, Bool.or_eq_true, List.all_eq_true, decide_eq_true_eq] at h
  obtain ⟨⟨⟨⟨⟨hsix, -⟩, -⟩, -⟩, -⟩, hfour | htwo⟩ := h
  · exact ⟨0, .inl rfl, fun x hx => by have := hfour x hx; omega⟩
  · exact ⟨1, .inr rfl, fun x hx => by have := htwo x hx; have := hsix x hx; omega⟩

/-- Each LED of a pair stands in two neighbouring bytes of the group, under every layout the source allows. -/
theorem neighbouring_bytes_of_meetsSource {L : Layout} (h : L.meetsSource = true) (o : Bool) :
    ∃ d, (d = 0 ∨ d = 1) ∧ ∀ ch, L.slot o ch / 2 = d ∨ L.slot o ch / 2 = d + 1 := by
  simp only [Layout.meetsSource, Bool.and_eq_true] at h
  obtain ⟨⟨heven, hodd⟩, -⟩ := h
  cases o with
  | false =>
    obtain ⟨d, hd, hall⟩ := neighbouring_bytes_of_oneByteAndAHalf heven
    exact ⟨d, hd, fun ch => hall _ (by cases ch <;> simp [Layout.slot])⟩
  | true =>
    obtain ⟨d, hd, hall⟩ := neighbouring_bytes_of_oneByteAndAHalf hodd
    exact ⟨d, hd, fun ch => hall _ (by cases ch <;> simp [Layout.slot])⟩

/-- Settles O22: the LED's nibbles stand in two neighbouring bytes of its group, and only they are written. -/
theorem wrpixTouchesTwoNeighbouringBytes : Obligations.WrpixTouchesTwoNeighbouringBytes := by
  refine ⟨fun L hL p => ?_, fun p m r g b q h0 h1 => nib_writeLed_config_outside h0 h1 m r g b⟩
  obtain ⟨d, hd, hslot⟩ := neighbouring_bytes_of_meetsSource hL (p.index % 2 == 1)
  have hbase := p.groupBase_eq
  refine ⟨p.groupBase + d, by omega, fun m r g b q h0 h1 => ?_⟩
  have hne : ∀ ch, q ≠ nibbleNumber L p.index ch := by
    intro ch
    have := hslot ch
    unfold nibbleNumber
    omega
  simp only [nib_writeLed hL, hne, if_false]

/-! ## The end addresses -/

/-- Settles O47: the LEDs 63 and 0, whose nibbles are 189 to 191 and 0 to 2. -/
theorem firstAndLastLedAddresses : Obligations.FirstAndLastLedAddresses := by
  intro cr cg cb s
  have hlast : coordinate (3 : Coord) 0 3 = some ⟨3, 0, 3⟩ := by decide
  have hfirst : coordinate (0 : Coord) 3 0 = some ⟨0, 3, 0⟩ := by decide
  constructor
  · obtain ⟨t, ht, hr, hg, hb, hother, -⟩ := wrpixWritesExactlyItsLed 3 0 3 cr cg cb s _ hlast
    exact ⟨t, ht, hother 188 (by decide) (by decide) (by decide), hr,
      Memory.readByte_eq_some.2 ⟨_, _, hg, hb, rfl⟩⟩
  · obtain ⟨t, ht, hr, hg, hb, hother, -⟩ := wrpixWritesExactlyItsLed 0 3 0 cr cg cb s _ hfirst
    exact ⟨t, ht, Memory.readByte_eq_some.2 ⟨_, _, hr, hg, rfl⟩, hb,
      hother 3 (by decide) (by decide) (by decide)⟩

end Sys2Proof.Machine
end
